-- ==== Sys2Proof/Word.lean ====
section
/-! DEFINITION. The word types of the block (00_scope.md R6, R8, R9).

`u(v)` of the spec is `v.toNat`, `s(v)` is `v.toInt`; `a + b`, `a - b`, `a & b`, `a | b`, `a ^ b` of
00_scope.md R10 are the operations of `BitVec 32`, which are modulo 2^32. -/

namespace Sys2Proof

/-- A word: 32 bits (00_scope.md R6, R8). -/
abbrev Word := BitVec 32

/-- A halfword: 16 bits (00_scope.md R8). -/
abbrev Half := BitVec 16

/-- A byte: the granule of the data memory (00_scope.md R6, R8). -/
abbrev Byte := BitVec 8

/-- A register index: 5 bits (00_scope.md R6). -/
abbrev RegIdx := BitVec 5

end Sys2Proof
end

