-- ==== Sys2Proof/Syntax.lean ====
section
/-! DEFINITION. The 40 instructions of 30_encoding.md R95, one constructor per row of
`spec/opcode_table.json`.

Operands are those of the decoded record of 30_encoding.md R94: register indices of 5 bits and the
32-bit immediate `imm` that the decode unit hands on (R88 to R93), not the raw field (log 10). FENCE,
ECALL and EBREAK have no operand (46_system.md R200, R210, R211). -/

namespace Sys2Proof

/-- An instruction: "one variant per mnemonic-with-operands" (30_encoding.md R96). -/
inductive Instr where
  -- 40_arith_logic.md R132, R133
  | lui   (rd : RegIdx) (imm : Word)
  | auipc (rd : RegIdx) (imm : Word)
  -- 44_jumps.md R171, R172
  | jal   (rd : RegIdx) (imm : Word)
  | jalr  (rd rs1 : RegIdx) (imm : Word)
  -- 43_branches.md R161 to R166
  | beq   (rs1 rs2 : RegIdx) (imm : Word)
  | bne   (rs1 rs2 : RegIdx) (imm : Word)
  | blt   (rs1 rs2 : RegIdx) (imm : Word)
  | bge   (rs1 rs2 : RegIdx) (imm : Word)
  | bltu  (rs1 rs2 : RegIdx) (imm : Word)
  | bgeu  (rs1 rs2 : RegIdx) (imm : Word)
  -- 45_loads_stores.md R181 to R185
  | lb    (rd rs1 : RegIdx) (imm : Word)
  | lh    (rd rs1 : RegIdx) (imm : Word)
  | lw    (rd rs1 : RegIdx) (imm : Word)
  | lbu   (rd rs1 : RegIdx) (imm : Word)
  | lhu   (rd rs1 : RegIdx) (imm : Word)
  -- 45_loads_stores.md R186 to R188
  | sb    (rs1 rs2 : RegIdx) (imm : Word)
  | sh    (rs1 rs2 : RegIdx) (imm : Word)
  | sw    (rs1 rs2 : RegIdx) (imm : Word)
  -- 40_arith_logic.md R125, R129 to R131; 42_compare.md R153, R154
  | addi  (rd rs1 : RegIdx) (imm : Word)
  | slti  (rd rs1 : RegIdx) (imm : Word)
  | sltiu (rd rs1 : RegIdx) (imm : Word)
  | xori  (rd rs1 : RegIdx) (imm : Word)
  | ori   (rd rs1 : RegIdx) (imm : Word)
  | andi  (rd rs1 : RegIdx) (imm : Word)
  -- 41_shifts.md R144 to R146: `imm` is the shift amount, zero-extended (30_encoding.md R93)
  | slli  (rd rs1 : RegIdx) (imm : Word)
  | srli  (rd rs1 : RegIdx) (imm : Word)
  | srai  (rd rs1 : RegIdx) (imm : Word)
  -- 40_arith_logic.md R123 to R128; 41_shifts.md R141 to R143; 42_compare.md R151, R152
  | add   (rd rs1 rs2 : RegIdx)
  | sub   (rd rs1 rs2 : RegIdx)
  | sll   (rd rs1 rs2 : RegIdx)
  | slt   (rd rs1 rs2 : RegIdx)
  | sltu  (rd rs1 rs2 : RegIdx)
  | xor   (rd rs1 rs2 : RegIdx)
  | srl   (rd rs1 rs2 : RegIdx)
  | sra   (rd rs1 rs2 : RegIdx)
  | or    (rd rs1 rs2 : RegIdx)
  | and   (rd rs1 rs2 : RegIdx)
  -- 46_system.md R211, R200, R210
  | fence
  | ecall
  | ebreak
  deriving DecidableEq, Repr

end Sys2Proof
end

