-- ==== Sys2Proof/WellFormed.lean ====
section
/-! DEFINITION. When an instruction is one the encoding can express: its immediate is one that its
format's immediate rule can produce (30_encoding.md R88 to R93). -/

namespace Sys2Proof

/-- I and S immediates: the sign extension of 12 bits, -2048 to 2047 (30_encoding.md R88, R89). -/
def wfImm12 (imm : Word) : Bool := decide (-2048 ≤ imm.toInt ∧ imm.toInt ≤ 2047)

/-- B immediate: even, -4096 to 4094 (30_encoding.md R90). -/
def wfImmB (imm : Word) : Bool :=
  decide (-4096 ≤ imm.toInt ∧ imm.toInt ≤ 4094 ∧ imm.toNat % 2 = 0)

/-- J immediate: even, -1048576 to 1048574 (30_encoding.md R92). -/
def wfImmJ (imm : Word) : Bool :=
  decide (-1048576 ≤ imm.toInt ∧ imm.toInt ≤ 1048574 ∧ imm.toNat % 2 = 0)

/-- U immediate: the low twelve bits are zero (30_encoding.md R91). -/
def wfImmU (imm : Word) : Bool := decide (imm.toNat % 4096 = 0)

/-- Shift amount: 0 to 31 (30_encoding.md R93). -/
def wfShamt (imm : Word) : Bool := decide (imm.toNat < 32)

/-- The instruction's immediate is in the range of its format. -/
def Instr.wf : Instr → Bool
  | .lui _ imm | .auipc _ imm => wfImmU imm
  | .jal _ imm => wfImmJ imm
  | .beq _ _ imm | .bne _ _ imm | .blt _ _ imm | .bge _ _ imm | .bltu _ _ imm | .bgeu _ _ imm => wfImmB imm
  | .jalr _ _ imm | .lb _ _ imm | .lh _ _ imm | .lw _ _ imm | .lbu _ _ imm | .lhu _ _ imm => wfImm12 imm
  | .sb _ _ imm | .sh _ _ imm | .sw _ _ imm => wfImm12 imm
  | .addi _ _ imm | .slti _ _ imm | .sltiu _ _ imm | .xori _ _ imm | .ori _ _ imm | .andi _ _ imm => wfImm12 imm
  | .slli _ _ imm | .srli _ _ imm | .srai _ _ imm => wfShamt imm
  | .add _ _ _ | .sub _ _ _ | .sll _ _ _ | .slt _ _ _ | .sltu _ _ _ | .xor _ _ _ | .srl _ _ _ | .sra _ _ _
  | .or _ _ _ | .and _ _ _ => true
  | .fence | .ecall | .ebreak => true

end Sys2Proof
end

