-- ==== Sys2Proof/Decode.lean ====
section
/-! DEFINITION. The decode unit (30_encoding.md): the opcode table, the formats' immediates, the decoded
record, `decode` (total, rejecting every word that selects no row), and `encode`.

The decoder reads the match and mask columns of 30_encoding.md R95, the encoder the opcode, funct3 and
funct7 columns of the same table and the format drawings R82 to R87; that the two agree is an obligation. -/

namespace Sys2Proof

/-- The operation tags: the mnemonics of 30_encoding.md R95. -/
inductive Mnemonic where
  | lui | auipc | jal | jalr | beq | bne | blt | bge | bltu | bgeu | lb | lh | lw | lbu | lhu | sb | sh | sw
  | addi | slti | sltiu | xori | ori | andi | slli | srli | srai
  | add | sub | sll | slt | sltu | xor | srl | sra | or | and | fence | ecall | ebreak
  deriving DecidableEq, Repr

/-- The format column of 30_encoding.md R95. `carrier` is the I format as FENCE, ECALL and EBREAK use it,
whose immediate is "not used" (R96). -/
inductive Format where
  | r | i | s | b | u | j | shift | carrier
  deriving DecidableEq, Repr

/-- One row of the opcode map (30_encoding.md R95). -/
structure Row where
  mnemonic  : Mnemonic
  format    : Format
  matchBits : Word
  mask      : Word
  deriving DecidableEq, Repr

/-- The rows of LUI, AUIPC and the jumps (30_encoding.md R95). -/
def rowsUpperJump : List Row := [
  ⟨.lui,   .u, 0x00000037, 0x0000007f⟩,
  ⟨.auipc, .u, 0x00000017, 0x0000007f⟩,
  ⟨.jal,   .j, 0x0000006f, 0x0000007f⟩,
  ⟨.jalr,  .i, 0x00000067, 0x0000707f⟩]

/-- The rows of the branches (30_encoding.md R95). -/
def rowsBranch : List Row := [
  ⟨.beq,  .b, 0x00000063, 0x0000707f⟩,
  ⟨.bne,  .b, 0x00001063, 0x0000707f⟩,
  ⟨.blt,  .b, 0x00004063, 0x0000707f⟩,
  ⟨.bge,  .b, 0x00005063, 0x0000707f⟩,
  ⟨.bltu, .b, 0x00006063, 0x0000707f⟩,
  ⟨.bgeu, .b, 0x00007063, 0x0000707f⟩]

/-- The rows of the loads and stores (30_encoding.md R95). -/
def rowsMemory : List Row := [
  ⟨.lb,  .i, 0x00000003, 0x0000707f⟩,
  ⟨.lh,  .i, 0x00001003, 0x0000707f⟩,
  ⟨.lw,  .i, 0x00002003, 0x0000707f⟩,
  ⟨.lbu, .i, 0x00004003, 0x0000707f⟩,
  ⟨.lhu, .i, 0x00005003, 0x0000707f⟩,
  ⟨.sb,  .s, 0x00000023, 0x0000707f⟩,
  ⟨.sh,  .s, 0x00001023, 0x0000707f⟩,
  ⟨.sw,  .s, 0x00002023, 0x0000707f⟩]

/-- The rows of the register-immediate instructions (30_encoding.md R95). -/
def rowsImmediate : List Row := [
  ⟨.addi,  .i, 0x00000013, 0x0000707f⟩,
  ⟨.slti,  .i, 0x00002013, 0x0000707f⟩,
  ⟨.sltiu, .i, 0x00003013, 0x0000707f⟩,
  ⟨.xori,  .i, 0x00004013, 0x0000707f⟩,
  ⟨.ori,   .i, 0x00006013, 0x0000707f⟩,
  ⟨.andi,  .i, 0x00007013, 0x0000707f⟩,
  ⟨.slli,  .shift, 0x00001013, 0xfe00707f⟩,
  ⟨.srli,  .shift, 0x00005013, 0xfe00707f⟩,
  ⟨.srai,  .shift, 0x40005013, 0xfe00707f⟩]

/-- The rows of the register-register instructions (30_encoding.md R95). -/
def rowsRegister : List Row := [
  ⟨.add,  .r, 0x00000033, 0xfe00707f⟩,
  ⟨.sub,  .r, 0x40000033, 0xfe00707f⟩,
  ⟨.sll,  .r, 0x00001033, 0xfe00707f⟩,
  ⟨.slt,  .r, 0x00002033, 0xfe00707f⟩,
  ⟨.sltu, .r, 0x00003033, 0xfe00707f⟩,
  ⟨.xor,  .r, 0x00004033, 0xfe00707f⟩,
  ⟨.srl,  .r, 0x00005033, 0xfe00707f⟩,
  ⟨.sra,  .r, 0x40005033, 0xfe00707f⟩,
  ⟨.or,   .r, 0x00006033, 0xfe00707f⟩,
  ⟨.and,  .r, 0x00007033, 0xfe00707f⟩]

/-- The rows of FENCE, ECALL and EBREAK (30_encoding.md R95). -/
def rowsSystem : List Row := [
  ⟨.fence,  .carrier, 0x0000000f, 0x0000707f⟩,
  ⟨.ecall,  .carrier, 0x00000073, 0xffffffff⟩,
  ⟨.ebreak, .carrier, 0x00100073, 0xffffffff⟩]

/-- The opcode map, 40 rows (30_encoding.md R95). -/
def opcodeRows : List Row :=
  rowsUpperJump ++ rowsBranch ++ rowsMemory ++ rowsImmediate ++ rowsRegister ++ rowsSystem

/-- "A word `iw` selects a row when `(iw & mask) == match`" (30_encoding.md R95). -/
def Row.selects (r : Row) (iw : Word) : Bool := iw &&& r.mask == r.matchBits

/-- The row a word selects, if any (30_encoding.md R95, R96). -/
def selectRow (iw : Word) : Option Row := opcodeRows.find? (·.selects iw)

/-! ### Fields (30_encoding.md R81) and immediates (R88 to R93) -/

/-- `iw[6:0]`. -/
def fieldOpcode (iw : Word) : BitVec 7 := iw.extractLsb' 0 7
/-- `iw[11:7]`. -/
def fieldRd (iw : Word) : RegIdx := iw.extractLsb' 7 5
/-- `iw[14:12]`. -/
def fieldFunct3 (iw : Word) : BitVec 3 := iw.extractLsb' 12 3
/-- `iw[19:15]`. -/
def fieldRs1 (iw : Word) : RegIdx := iw.extractLsb' 15 5
/-- `iw[24:20]`. -/
def fieldRs2 (iw : Word) : RegIdx := iw.extractLsb' 20 5
/-- `iw[31:25]`. -/
def fieldFunct7 (iw : Word) : BitVec 7 := iw.extractLsb' 25 7

/-- `sext_12(iw[31:20])` (30_encoding.md R88). -/
def immI (iw : Word) : Word := (iw.extractLsb' 20 12).signExtend 32

/-- `sext_12(iw[31:25] ++ iw[11:7])` (30_encoding.md R89). -/
def immS (iw : Word) : Word := (iw.extractLsb' 25 7 ++ iw.extractLsb' 7 5).signExtend 32

/-- `sext_13(iw[31] ++ iw[7] ++ iw[30:25] ++ iw[11:8] ++ 0b0)` (30_encoding.md R90). -/
def immB (iw : Word) : Word :=
  (iw.extractLsb' 31 1 ++ iw.extractLsb' 7 1 ++ iw.extractLsb' 25 6 ++ iw.extractLsb' 8 4 ++ 0#1).signExtend 32

/-- `iw[31:12] ++ 0x000` (30_encoding.md R91). -/
def immU (iw : Word) : Word := iw.extractLsb' 12 20 ++ 0#12

/-- `sext_21(iw[31] ++ iw[19:12] ++ iw[20] ++ iw[30:21] ++ 0b0)` (30_encoding.md R92). -/
def immJ (iw : Word) : Word :=
  (iw.extractLsb' 31 1 ++ iw.extractLsb' 12 8 ++ iw.extractLsb' 20 1 ++ iw.extractLsb' 21 10 ++ 0#1).signExtend 32

/-- `zext_5(iw[24:20])` (30_encoding.md R93). -/
def immShamt (iw : Word) : Word := (iw.extractLsb' 20 5).zeroExtend 32

/-- "`imm <- by format of r`" (30_encoding.md R96); 0 for the R format and where it is not used. -/
def immOf (f : Format) (iw : Word) : Word :=
  match f with
  | .i => immI iw
  | .s => immS iw
  | .b => immB iw
  | .u => immU iw
  | .j => immJ iw
  | .shift => immShamt iw
  | .r | .carrier => 0

/-! ### The decoded record and the decode function -/

/-- The decode unit's output (30_encoding.md R94). `op = none` is `ILLEGAL`. -/
structure Decoded where
  op  : Option Mnemonic
  rd  : RegIdx
  rs1 : RegIdx
  rs2 : RegIdx
  imm : Word
  deriving DecidableEq, Repr

/-- The spec's `Decode(iw)` (30_encoding.md R96). For `ILLEGAL` the record's `imm` is read by no rule; it
is 0 here. -/
def decodeRecord (iw : Word) : Decoded where
  op  := (selectRow iw).map (·.mnemonic)
  rd  := fieldRd iw
  rs1 := fieldRs1 iw
  rs2 := fieldRs2 iw
  imm := match selectRow iw with
    | some r => immOf r.format iw
    | none => 0

/-- The instruction an operation tag stands for, with the operands its format has (30_encoding.md R94:
"A field the format does not have is not read by any rule"). -/
def Mnemonic.toInstr (m : Mnemonic) (d : Decoded) : Instr :=
  match m with
  | .lui => .lui d.rd d.imm
  | .auipc => .auipc d.rd d.imm
  | .jal => .jal d.rd d.imm
  | .jalr => .jalr d.rd d.rs1 d.imm
  | .beq => .beq d.rs1 d.rs2 d.imm
  | .bne => .bne d.rs1 d.rs2 d.imm
  | .blt => .blt d.rs1 d.rs2 d.imm
  | .bge => .bge d.rs1 d.rs2 d.imm
  | .bltu => .bltu d.rs1 d.rs2 d.imm
  | .bgeu => .bgeu d.rs1 d.rs2 d.imm
  | .lb => .lb d.rd d.rs1 d.imm
  | .lh => .lh d.rd d.rs1 d.imm
  | .lw => .lw d.rd d.rs1 d.imm
  | .lbu => .lbu d.rd d.rs1 d.imm
  | .lhu => .lhu d.rd d.rs1 d.imm
  | .sb => .sb d.rs1 d.rs2 d.imm
  | .sh => .sh d.rs1 d.rs2 d.imm
  | .sw => .sw d.rs1 d.rs2 d.imm
  | .addi => .addi d.rd d.rs1 d.imm
  | .slti => .slti d.rd d.rs1 d.imm
  | .sltiu => .sltiu d.rd d.rs1 d.imm
  | .xori => .xori d.rd d.rs1 d.imm
  | .ori => .ori d.rd d.rs1 d.imm
  | .andi => .andi d.rd d.rs1 d.imm
  | .slli => .slli d.rd d.rs1 d.imm
  | .srli => .srli d.rd d.rs1 d.imm
  | .srai => .srai d.rd d.rs1 d.imm
  | .add => .add d.rd d.rs1 d.rs2
  | .sub => .sub d.rd d.rs1 d.rs2
  | .sll => .sll d.rd d.rs1 d.rs2
  | .slt => .slt d.rd d.rs1 d.rs2
  | .sltu => .sltu d.rd d.rs1 d.rs2
  | .xor => .xor d.rd d.rs1 d.rs2
  | .srl => .srl d.rd d.rs1 d.rs2
  | .sra => .sra d.rd d.rs1 d.rs2
  | .or => .or d.rd d.rs1 d.rs2
  | .and => .and d.rd d.rs1 d.rs2
  | .fence => .fence
  | .ecall => .ecall
  | .ebreak => .ebreak

/-- Why a word is rejected: it is an illegal instruction (30_encoding.md R97). -/
inductive DecodeError where
  | illegalInstruction (iw : Word)
  deriving DecidableEq, Repr

/-- The instruction a word is, or its rejection as `ILLEGAL` (30_encoding.md R96, R97). -/
def decode (iw : Word) : Except DecodeError Instr :=
  match (decodeRecord iw).op with
  | some m => .ok (m.toInstr (decodeRecord iw))
  | none => .error (.illegalInstruction iw)

/-! ### The encoder (formats 30_encoding.md R82 to R87; opcode, funct3 and funct7 of R95) -/

/-- R format (30_encoding.md R82). -/
def encR (funct7 : BitVec 7) (rs2 rs1 : RegIdx) (funct3 : BitVec 3) (rd : RegIdx) (opcode : BitVec 7) : Word :=
  funct7 ++ rs2 ++ rs1 ++ funct3 ++ rd ++ opcode

/-- I format (30_encoding.md R83). -/
def encI (imm : Word) (rs1 : RegIdx) (funct3 : BitVec 3) (rd : RegIdx) (opcode : BitVec 7) : Word :=
  imm.extractLsb' 0 12 ++ rs1 ++ funct3 ++ rd ++ opcode

/-- S format (30_encoding.md R84). -/
def encS (imm : Word) (rs2 rs1 : RegIdx) (funct3 : BitVec 3) (opcode : BitVec 7) : Word :=
  imm.extractLsb' 5 7 ++ rs2 ++ rs1 ++ funct3 ++ imm.extractLsb' 0 5 ++ opcode

/-- B format (30_encoding.md R85). -/
def encB (imm : Word) (rs2 rs1 : RegIdx) (funct3 : BitVec 3) (opcode : BitVec 7) : Word :=
  imm.extractLsb' 12 1 ++ imm.extractLsb' 5 6 ++ rs2 ++ rs1 ++ funct3 ++ imm.extractLsb' 1 4
    ++ imm.extractLsb' 11 1 ++ opcode

/-- U format (30_encoding.md R86). -/
def encU (imm : Word) (rd : RegIdx) (opcode : BitVec 7) : Word :=
  imm.extractLsb' 12 20 ++ rd ++ opcode

/-- J format (30_encoding.md R87). -/
def encJ (imm : Word) (rd : RegIdx) (opcode : BitVec 7) : Word :=
  imm.extractLsb' 20 1 ++ imm.extractLsb' 1 10 ++ imm.extractLsb' 11 1 ++ imm.extractLsb' 12 8 ++ rd ++ opcode

/-- Shift immediates: the I format with `funct7` and `shamt` (30_encoding.md R83, R93). -/
def encShift (funct7 : BitVec 7) (imm : Word) (rs1 : RegIdx) (funct3 : BitVec 3) (rd : RegIdx) (opcode : BitVec 7) : Word :=
  encR funct7 (imm.extractLsb' 0 5) rs1 funct3 rd opcode

/-- The word of a well-formed instruction. FENCE has many words (30_encoding.md R100); this gives
`fence iorw, iorw`, the example of 46_system.md R211 (log 10). -/
def encode : Instr → Word
  | .lui rd imm => encU imm rd 0b0110111
  | .auipc rd imm => encU imm rd 0b0010111
  | .jal rd imm => encJ imm rd 0b1101111
  | .jalr rd rs1 imm => encI imm rs1 0b000 rd 0b1100111
  | .beq rs1 rs2 imm => encB imm rs2 rs1 0b000 0b1100011
  | .bne rs1 rs2 imm => encB imm rs2 rs1 0b001 0b1100011
  | .blt rs1 rs2 imm => encB imm rs2 rs1 0b100 0b1100011
  | .bge rs1 rs2 imm => encB imm rs2 rs1 0b101 0b1100011
  | .bltu rs1 rs2 imm => encB imm rs2 rs1 0b110 0b1100011
  | .bgeu rs1 rs2 imm => encB imm rs2 rs1 0b111 0b1100011
  | .lb rd rs1 imm => encI imm rs1 0b000 rd 0b0000011
  | .lh rd rs1 imm => encI imm rs1 0b001 rd 0b0000011
  | .lw rd rs1 imm => encI imm rs1 0b010 rd 0b0000011
  | .lbu rd rs1 imm => encI imm rs1 0b100 rd 0b0000011
  | .lhu rd rs1 imm => encI imm rs1 0b101 rd 0b0000011
  | .sb rs1 rs2 imm => encS imm rs2 rs1 0b000 0b0100011
  | .sh rs1 rs2 imm => encS imm rs2 rs1 0b001 0b0100011
  | .sw rs1 rs2 imm => encS imm rs2 rs1 0b010 0b0100011
  | .addi rd rs1 imm => encI imm rs1 0b000 rd 0b0010011
  | .slti rd rs1 imm => encI imm rs1 0b010 rd 0b0010011
  | .sltiu rd rs1 imm => encI imm rs1 0b011 rd 0b0010011
  | .xori rd rs1 imm => encI imm rs1 0b100 rd 0b0010011
  | .ori rd rs1 imm => encI imm rs1 0b110 rd 0b0010011
  | .andi rd rs1 imm => encI imm rs1 0b111 rd 0b0010011
  | .slli rd rs1 imm => encShift 0b0000000 imm rs1 0b001 rd 0b0010011
  | .srli rd rs1 imm => encShift 0b0000000 imm rs1 0b101 rd 0b0010011
  | .srai rd rs1 imm => encShift 0b0100000 imm rs1 0b101 rd 0b0010011
  | .add rd rs1 rs2 => encR 0b0000000 rs2 rs1 0b000 rd 0b0110011
  | .sub rd rs1 rs2 => encR 0b0100000 rs2 rs1 0b000 rd 0b0110011
  | .sll rd rs1 rs2 => encR 0b0000000 rs2 rs1 0b001 rd 0b0110011
  | .slt rd rs1 rs2 => encR 0b0000000 rs2 rs1 0b010 rd 0b0110011
  | .sltu rd rs1 rs2 => encR 0b0000000 rs2 rs1 0b011 rd 0b0110011
  | .xor rd rs1 rs2 => encR 0b0000000 rs2 rs1 0b100 rd 0b0110011
  | .srl rd rs1 rs2 => encR 0b0000000 rs2 rs1 0b101 rd 0b0110011
  | .sra rd rs1 rs2 => encR 0b0100000 rs2 rs1 0b101 rd 0b0110011
  | .or rd rs1 rs2 => encR 0b0000000 rs2 rs1 0b110 rd 0b0110011
  | .and rd rs1 rs2 => encR 0b0000000 rs2 rs1 0b111 rd 0b0110011
  | .fence => 0x0ff0000f
  | .ecall => 0x00000073
  | .ebreak => 0x00100073

/-- The word whose bits are `w`, an instruction of `nbits` bits, bits above `nbits` zero. -/
def tableWord (nbits w : Nat) : Word := BitVec.ofNat 32 (w % 2 ^ nbits)

/-- The instruction the decoder reads from a row's word numbered as `spec/opcode_table.json` numbers it;
the instruction space holds whole words (20_memory.md R50, R58), so no byte order enters. -/
def decodeTableWord (nbits w : Nat) : Option Instr :=
  match decode (tableWord nbits w) with
  | .ok i => some i
  | .error _ => none

end Sys2Proof
end

