-- ==== Sys2Proof/Config.lean ====
section
/-! DEFINITION. What is fixed for one block: the seven open parameters of 00_scope.md R7
(92_eei_decisions.md, "Open parameters in one place"), and the environment interface of
46_system.md R201 with its uninterpreted family of handlers. -/

namespace Sys2Proof

/-- The causes an environment's `Fail` may carry: "`Fail` may carry the causes `UnsupportedSyscall`
and `MemoryFault` only" (46_system.md R201). -/
inductive EnvCause where
  | unsupportedSyscall
  | memoryFault
  deriving DecidableEq, Repr, Inhabited

/-- The three answers of the environment (46_system.md R201). `goOn` is the spec's `Continue`. -/
inductive EnvAnswer where
  | goOn (bytes : List Byte)
  | exit (code : Word)
  | fail (cause : EnvCause) (info : Word)
  deriving DecidableEq, Repr, Inhabited

/-- The environment handlers a host may supply other than `ENV_REF`: total, deterministic functions of
the 32 register values and the data memory with its bound (46_system.md R201), told apart by a number
and otherwise unknown. FREE VALUE (log 6): nothing can be proved of its answers. -/
opaque Config.env (id : Nat) (x : Vector Word 32) (mem : List Host.Cell) (bound : Nat) : EnvAnswer

/-- What a data byte that no cell lists holds (log 4: a choice of representation). -/
def Config.unlistedByte : Byte := 0

/-- Which handler the parameter `ENV` is: the reference instance of 46_system.md R204, or another. -/
inductive EnvChoice where
  | reference
  | other (id : Nat)
  deriving DecidableEq, Repr

/-- The open parameters of 00_scope.md R7, as plain data. `N_INSTR` is the length of `prog`;
`resetRegs` holds `RESET_REGS[1]` to `RESET_REGS[31]`; `initMem` is `INIT_MEM` in the canonical form of
the data memory. -/
structure Params where
  entry     : Word
  prog      : List Word
  memBound  : Nat
  initMem   : List Host.Cell
  resetRegs : Vector Word 31
  env       : EnvChoice
  deriving DecidableEq, Repr

/-- `N_INSTR` (00_scope.md R7). -/
def Params.nInstr (p : Params) : Nat := p.prog.length

/-- The parameters `State.reset` is instantiated with: those 95_test_vectors.md uses by default (R7,
last paragraph), with no program. DESIGN CHOICE, unsafe where a claim rests on them (logs 1 to 6). -/
def Params.vectorDefaults : Params where
  entry     := 0
  prog      := []
  memBound  := 4096
  initMem   := []
  resetRegs := Vector.replicate 31 0
  env       := .reference

end Sys2Proof
end

