-- ==== Sys2Proof/Machine/State.lean ====
section
/-! DEFINITION. The architectural state (10_state.md), its reset values (R39), and the reasons the host
interface allows a step to stop. -/

namespace Sys2Proof.Machine

/-- `STATUS` (10_state.md R26). -/
inductive Status where
  | ready
  | active
  | haltDone
  | haltErr
  deriving DecidableEq, Repr

/-- The five fault causes (60_exceptions.md R251). A fault of the block is recorded in `State.fault`; it
is a next state, not a `Fault` of the host interface (log 9). -/
inductive Cause where
  | memoryFault
  | unsupportedSyscall
  | illegalInstruction
  | unsupportedOperation
  | misalignedTarget
  deriving DecidableEq, Repr

/-- The pair `(cause, info)` of `FAULT` (10_state.md R28). -/
structure FaultRecord where
  cause : Cause
  info  : Word
  deriving DecidableEq, Repr

/-- Everything the spec gives the block (10_state.md, summary of state), with the parameters the block
was instantiated with (00_scope.md R7, log 7). `regs` holds `x[1]` to `x[31]` (47_step_cycle.md R223);
`mem` is the data memory as the list of its bytes other than `Config.unlistedByte`, by rising address. -/
structure State where
  regs     : Vector Word 31
  pc       : Word
  status   : Status
  exitCode : Option Word
  fault    : Option FaultRecord
  stdout   : List Byte
  mem      : List Host.Cell
  params   : Params
  deriving DecidableEq, Repr

/-- Why a step may stop with a host fault: never. `step` is total on this hardware and every fault the
spec describes is a next state (60_exceptions.md R255, R260), so no constructor exists (log 9). -/
inductive Fault where
  deriving DecidableEq, Repr

/-- Why an instruction may have no meaning. -/
inductive Refusal where
  /-- Raised by an arm of `exec` for an instruction not modelled yet; no arm raises it now. Safe. -/
  | notModelled (mnemonic : String)
  deriving DecidableEq, Repr

/-- The block right after instantiation or reset with parameters `p`: the values of 10_state.md R39. -/
def State.ofParams (p : Params) : State where
  regs     := p.resetRegs
  pc       := p.entry
  status   := .ready
  exitCode := none
  fault    := none
  stdout   := []
  mem      := p.initMem
  params   := p

/-- The machine right after reset, with the parameters of `Params.vectorDefaults` (logs 1 to 6). -/
def State.reset : State := State.ofParams Params.vectorDefaults

end Sys2Proof.Machine
end

