-- ==== Sys2Proof/Machine/Ops.lean ====
section
/-! DEFINITION. The named operations over registers, memory and the program store, and the commit of an
instruction's delta or fault (47_step_cycle.md R228, R230). -/

namespace Sys2Proof.Machine

/-! ### Register file (10_state.md R20 to R22, 47_step_cycle.md R223) -/

/-- `x[r]`: register 0 reads as zero (10_state.md R21). -/
def State.readReg (s : State) (r : RegIdx) : Word :=
  if r = 0 then 0 else s.regs[r.toNat - 1]'(by omega)

/-- The register file after `x[r] <- v`: a write to register 0 is dropped (10_state.md R21). -/
def writeRegs (regs : Vector Word 31) (r : RegIdx) (v : Word) : Vector Word 31 :=
  if r = 0 then regs else regs.set (r.toNat - 1) v (by omega)

/-- All 32 register values, as the third port shows them to the environment and the observation port
(47_step_cycle.md R223). -/
def State.regs32 (s : State) : Vector Word 32 := (#v[(0 : Word)] ++ s.regs : Vector Word (1 + 31))

/-! ### Data memory (20_memory.md R50 to R57) -/

/-- The byte at address `a`. -/
def Memory.get : List Host.Cell → Nat → Byte
  | [], _ => Config.unlistedByte
  | (k, b) :: m, a => if k = a then b else Memory.get m a

/-- The memory after byte `b` is stored at address `a`, in canonical form. -/
def Memory.set : List Host.Cell → Nat → Byte → List Host.Cell
  | [], a, b => if b = Config.unlistedByte then [] else [(a, b)]
  | (k, c) :: m, a, b =>
    if k < a then (k, c) :: Memory.set m a b
    else if k = a then (if b = Config.unlistedByte then m else (a, b) :: m)
    else (if b = Config.unlistedByte then (k, c) :: m else (a, b) :: (k, c) :: m)

/-- The memory after the bytes `bs` are stored at `a`, `a+1`, ... (20_memory.md R55). -/
def Memory.setBytes (m : List Host.Cell) (a : Nat) : List Byte → List Host.Cell
  | [] => m
  | b :: bs => Memory.setBytes (Memory.set m a b) (a + 1) bs

/-- The `n` bytes at `a`, `a+1`, ... (46_system.md R206). -/
def Memory.getBytes (m : List Host.Cell) (a : Nat) : Nat → List Byte
  | 0 => []
  | n + 1 => Memory.get m a :: Memory.getBytes m (a + 1) n

/-- Canonical cells from address `lo` on: strictly rising, none holding what an unlisted byte holds. -/
def Memory.wfFrom (lo : Nat) : List Host.Cell → Bool
  | [] => true
  | (k, b) :: m => decide (lo ≤ k) && decide (b ≠ Config.unlistedByte) && Memory.wfFrom (k + 1) m

/-- The canonical form of a data memory. -/
def Memory.wf (m : List Host.Cell) : Bool := Memory.wfFrom 0 m

/-- Every listed cell lies below the bound (20_memory.md R51). -/
def Memory.within (bound : Nat) (m : List Host.Cell) : Bool := m.all (fun c => decide (c.1 < bound))

/-- `MEM[a]`. -/
def State.byte (s : State) (a : Nat) : Byte := Memory.get s.mem a

/-- Admission: `u(addr) + n <= MEM_BOUND`, "the sum taken in the natural numbers" (20_memory.md R53). -/
def State.admits (s : State) (addr : Word) (n : Nat) : Bool := decide (addr.toNat + n ≤ s.params.memBound)

/-- The refusal of an access: `MemoryFault(addr)` (20_memory.md R53). -/
def memoryFault (addr : Word) : FaultRecord := ⟨.memoryFault, addr⟩

/-- `MemRead(addr, 1)` (20_memory.md R54). -/
def State.memRead8 (s : State) (addr : Word) : Except FaultRecord Byte :=
  if s.admits addr 1 then .ok (s.byte addr.toNat) else .error (memoryFault addr)

/-- `MemRead(addr, 2)` (20_memory.md R54). -/
def State.memRead16 (s : State) (addr : Word) : Except FaultRecord Half :=
  if s.admits addr 2 then .ok (s.byte (addr.toNat + 1) ++ s.byte addr.toNat) else .error (memoryFault addr)

/-- `MemRead(addr, 4)` (20_memory.md R54). -/
def State.memRead32 (s : State) (addr : Word) : Except FaultRecord Word :=
  if s.admits addr 4 then
    .ok (s.byte (addr.toNat + 3) ++ s.byte (addr.toNat + 2) ++ s.byte (addr.toNat + 1) ++ s.byte addr.toNat)
  else .error (memoryFault addr)

/-- The one byte of a byte store. -/
def bytes8 (v : Byte) : List Byte := [v]

/-- The bytes of a halfword, least significant first (20_memory.md R52). -/
def bytes16 (v : Half) : List Byte := [v.extractLsb' 0 8, v.extractLsb' 8 8]

/-- The bytes of a word, least significant first (20_memory.md R52). -/
def bytes32 (v : Word) : List Byte :=
  [v.extractLsb' 0 8, v.extractLsb' 8 8, v.extractLsb' 16 8, v.extractLsb' 24 8]

/-- An admitted memory write, to be committed: the address of its first byte and its bytes. -/
structure MemWrite where
  addr  : Nat
  bytes : List Byte
  deriving DecidableEq, Repr

/-- `MemWrite(addr, n, v)` with the bytes of `v` (20_memory.md R55): refused as a whole or admitted as a
whole. -/
def State.memWrite (s : State) (addr : Word) (bytes : List Byte) : Except FaultRecord MemWrite :=
  if s.admits addr bytes.length then .ok ⟨addr.toNat, bytes⟩ else .error (memoryFault addr)

/-! ### Program store and PC (10_state.md R24, R30, R38; 20_memory.md R58) -/

/-- The valid instruction range: `ENTRY <= a < ENTRY + 4*N_INSTR`, "compared as natural numbers"
(10_state.md R38). -/
def inRange (p : Params) (a : Word) : Bool :=
  decide (p.entry.toNat ≤ a.toNat ∧ a.toNat < p.entry.toNat + 4 * p.nInstr)

/-- `IFetch(pc)` (20_memory.md R58). In states no run reaches, a misaligned PC takes the word its
address lies in (log 12). -/
def fetchAt (p : Params) (pc : Word) : Option Word :=
  if inRange p pc then p.prog[(pc.toNat - p.entry.toNat) / 4]? else none

/-- The next instruction word, or none. -/
def State.fetch (s : State) : Option Word := fetchAt s.params s.pc

/-! ### Commit (47_step_cycle.md R228 lines 4 to 7, R230) -/

/-- The delta of one instruction (47_step_cycle.md R228 line 4, R230). -/
structure Delta where
  reg    : Option (RegIdx × Word) := none
  store  : Option MemWrite := none
  out    : List Byte := []
  exit   : Option Word := none
  nextPc : Word
  deriving DecidableEq, Repr

/-- What executing an instruction produces: a delta, or a fault (47_step_cycle.md R228 line 4). -/
abbrev Effect := Except FaultRecord Delta

/-- TAKING A FAULT, the one operation: `FAULT <- (cause, info)`, `STATUS <- HALT_ERR`, and nothing else
(60_exceptions.md R255, R256). There is no return from a fault (R258). -/
def State.takeFault (s : State) (f : FaultRecord) : State :=
  { s with fault := some f, status := .haltErr }

/-- `STATUS` after a committed step (47_step_cycle.md R228 line 7, R231). -/
def statusAfter (p : Params) (exit : Option Word) (pc : Word) : Status :=
  if exit.isSome then .haltDone else if inRange p pc then .active else .haltDone

/-- Committing a whole delta (47_step_cycle.md R228 lines 6 and 7). -/
def State.commit (s : State) (d : Delta) : State where
  regs     := match d.reg with
    | some (r, v) => writeRegs s.regs r v
    | none => s.regs
  pc       := d.nextPc
  status   := statusAfter s.params d.exit d.nextPc
  exitCode := d.exit.or s.exitCode
  fault    := s.fault
  stdout   := s.stdout ++ d.out
  mem      := match d.store with
    | some w => Memory.setBytes s.mem w.addr w.bytes
    | none => s.mem
  params   := s.params

/-- The next state an effect gives: the delta committed, or the fault taken (47_step_cycle.md R230). -/
def State.apply (s : State) (e : Effect) : State :=
  match e with
  | .ok d => s.commit d
  | .error f => s.takeFault f

/-- An instruction's outcome: always a next state (60_exceptions.md R260). -/
def State.complete (s : State) (e : Effect) : Host.Outcome State Fault Refusal := .next (s.apply e)

/-! ### The shapes of effect the instruction rules share -/

/-- `pc + 4` (10_state.md R25, R37). -/
def State.seqPc (s : State) : Word := s.pc + 4

/-- `x[rd] <- v` and the PC advances by 4 (40_arith_logic.md R134). -/
def State.writeRd (s : State) (rd : RegIdx) (v : Word) : Effect :=
  .ok { reg := some (rd, v), nextPc := s.seqPc }

/-- The PC advances by 4 and nothing else. -/
def State.advance (s : State) : Effect := .ok { nextPc := s.seqPc }

/-- The alignment check of a control-transfer target (44_jumps.md R173): `MisalignedTarget(t)` unless
`t[1:0] = 00`. -/
def checkTarget (t : Word) : Except FaultRecord Word :=
  if t.extractLsb' 0 2 = 0#2 then .ok t else .error ⟨.misalignedTarget, t⟩

/-- A conditional branch (43_branches.md R160). -/
def State.branch (s : State) (cond : Bool) (imm : Word) : Effect :=
  if cond then
    match checkTarget (s.pc + imm) with
    | .ok t => .ok { nextPc := t }
    | .error f => .error f
  else s.advance

/-- A jump to `t` with the link in `rd` (44_jumps.md R170). -/
def State.jump (s : State) (rd : RegIdx) (t : Word) : Effect :=
  match checkTarget t with
  | .ok t => .ok { reg := some (rd, s.seqPc), nextPc := t }
  | .error f => .error f

/-- A load: the extended value read into `rd`, or the fault of the access (45_loads_stores.md R190). -/
def State.load (s : State) (rd : RegIdx) (value : Except FaultRecord Word) : Effect :=
  match value with
  | .ok v => s.writeRd rd v
  | .error f => .error f

/-- A store of `bytes` at `ea`, or the fault of the access (45_loads_stores.md R190). -/
def State.store (s : State) (ea : Word) (bytes : List Byte) : Effect :=
  match s.memWrite ea bytes with
  | .ok w => .ok { store := some w, nextPc := s.seqPc }
  | .error f => .error f

/-! ### Placing an instruction word for the next step -/

/-- `s` with `iw` in the program store where the next step fetches, and not halted (log 11): inside the
valid range the word at the PC is replaced; outside it, the program becomes that one word, entered at the
(aligned) PC. -/
def State.placeWord (s : State) (iw : Word) : State :=
  { s with
    status := match s.status with
      | .ready => .ready
      | .active | .haltDone | .haltErr => .active
    params :=
      if inRange s.params s.pc then
        { s.params with prog := s.params.prog.set ((s.pc.toNat - s.params.entry.toNat) / 4) iw }
      else
        { s.params with entry := s.pc - BitVec.ofNat 32 (s.pc.toNat % 4), prog := [iw] } }

end Sys2Proof.Machine
end

