-- ==== Sys2Proof/Machine/Operands.lean ====
section
/-! DEFINITION. The operand forms the instruction rules use: shift amount, effective address, transfer
targets, the extended values of loads and the low bytes of stores. -/

namespace Sys2Proof.Machine

/-- The shift amount of a word: "the low five bits ... read as an unsigned number 0 to 31"
(41_shifts.md R140). -/
def shiftAmount (v : Word) : Nat := (v.extractLsb' 0 5).toNat

/-- `ea = x[rs1] + imm`, modulo 2^32 (45_loads_stores.md R180); the translation is the identity
(20_memory.md R65). -/
def State.effAddr (s : State) (rs1 : RegIdx) (imm : Word) : Word := s.readReg rs1 + imm

/-- The target of JALR: `(x[rs1] + imm) & ~1` (44_jumps.md R172). -/
def State.jalrTarget (s : State) (rs1 : RegIdx) (imm : Word) : Word := (s.readReg rs1 + imm) &&& ~~~1

/-- `sext_8(MemRead(ea, 1))` (45_loads_stores.md R181). -/
def State.loadS8 (s : State) (ea : Word) : Except FaultRecord Word := (s.memRead8 ea).map (·.signExtend 32)
/-- `zext_8(MemRead(ea, 1))` (45_loads_stores.md R184). -/
def State.loadU8 (s : State) (ea : Word) : Except FaultRecord Word := (s.memRead8 ea).map (·.zeroExtend 32)
/-- `sext_16(MemRead(ea, 2))` (45_loads_stores.md R182). -/
def State.loadS16 (s : State) (ea : Word) : Except FaultRecord Word := (s.memRead16 ea).map (·.signExtend 32)
/-- `zext_16(MemRead(ea, 2))` (45_loads_stores.md R185). -/
def State.loadU16 (s : State) (ea : Word) : Except FaultRecord Word := (s.memRead16 ea).map (·.zeroExtend 32)
/-- `MemRead(ea, 4)` (45_loads_stores.md R183). -/
def State.load32 (s : State) (ea : Word) : Except FaultRecord Word := s.memRead32 ea

/-- The byte a SB stores: `x[rs2][7:0]` (45_loads_stores.md R186). -/
def State.storeBytes8 (s : State) (rs2 : RegIdx) : List Byte := bytes8 ((s.readReg rs2).extractLsb' 0 8)
/-- The bytes a SH stores: `x[rs2][15:0]` (45_loads_stores.md R187). -/
def State.storeBytes16 (s : State) (rs2 : RegIdx) : List Byte := bytes16 ((s.readReg rs2).extractLsb' 0 16)
/-- The bytes a SW stores: `x[rs2]` (45_loads_stores.md R188). -/
def State.storeBytes32 (s : State) (rs2 : RegIdx) : List Byte := bytes32 (s.readReg rs2)

end Sys2Proof.Machine
end

