-- ==== Sys2Proof/Machine/Flags.lean ====
section
/-! DEFINITION. The comparisons. The block has no flags: "There is no condition-code, carry, overflow or
status flag" (10_state.md R32). What stands in their place are the three comparison bits of the ALU
(47_step_cycle.md R224), read by the set-less-than instructions and the branches. -/

namespace Sys2Proof.Machine

/-- `eq = (a == b)` (00_scope.md R10). -/
def cmpEq (a b : Word) : Bool := a == b

/-- `lt = (a <s b)`: `s(a) < s(b)` (00_scope.md R10). -/
def cmpLt (a b : Word) : Bool := decide (a.toInt < b.toInt)

/-- `ltu = (a <u b)`: `u(a) < u(b)` (00_scope.md R10). -/
def cmpLtu (a b : Word) : Bool := decide (a.toNat < b.toNat)

/-- "`cond ? 1 : 0`": the word a set-less-than instruction writes (42_compare.md R150). -/
def boolWord (c : Bool) : Word := if c then 1 else 0

end Sys2Proof.Machine
end

