-- ==== Sys2Proof/Machine/Alu.lean ====
section
/-! DEFINITION. The functions of the integer ALU (47_step_cycle.md R224), as the operators of
00_scope.md R10. None can fault (40_arith_logic.md R120). -/

namespace Sys2Proof.Machine

/-- `a + b` modulo 2^32. -/
def aluAdd (a b : Word) : Word := a + b
/-- `a - b` modulo 2^32. -/
def aluSub (a b : Word) : Word := a - b
/-- `a & b`. -/
def aluAnd (a b : Word) : Word := a &&& b
/-- `a | b`. -/
def aluOr (a b : Word) : Word := a ||| b
/-- `a ^ b`. -/
def aluXor (a b : Word) : Word := a ^^^ b
/-- `a << u(b[4:0])` (41_shifts.md R140). -/
def aluSll (a b : Word) : Word := a <<< shiftAmount b
/-- `a >>u u(b[4:0])`: zero-fill (41_shifts.md R140). -/
def aluSrl (a b : Word) : Word := a >>> shiftAmount b
/-- `a >>s u(b[4:0])`: sign-fill (41_shifts.md R140). -/
def aluSra (a b : Word) : Word := a.sshiftRight (shiftAmount b)
/-- `(a <s b) ? 1 : 0` (42_compare.md R150). -/
def aluSlt (a b : Word) : Word := boolWord (cmpLt a b)
/-- `(a <u b) ? 1 : 0` (42_compare.md R150). -/
def aluSltu (a b : Word) : Word := boolWord (cmpLtu a b)

end Sys2Proof.Machine
end

