-- ==== Sys2Proof/Machine/Arith.lean ====
section
/-! DEFINITION. The arithmetic and logical instructions (40_arith_logic.md; common behaviour R134). -/

namespace Sys2Proof.Machine

/-- ADD: `x[rd] <- x[rs1] + x[rs2]` (40_arith_logic.md R123). -/
def execAdd (rd rs1 rs2 : RegIdx) (s : State) : Host.Outcome State Fault Refusal :=
  s.complete (s.writeRd rd (aluAdd (s.readReg rs1) (s.readReg rs2)))

/-- SUB: `x[rd] <- x[rs1] - x[rs2]` (40_arith_logic.md R124). -/
def execSub (rd rs1 rs2 : RegIdx) (s : State) : Host.Outcome State Fault Refusal :=
  s.complete (s.writeRd rd (aluSub (s.readReg rs1) (s.readReg rs2)))

/-- AND: `x[rd] <- x[rs1] & x[rs2]` (40_arith_logic.md R126). -/
def execAnd (rd rs1 rs2 : RegIdx) (s : State) : Host.Outcome State Fault Refusal :=
  s.complete (s.writeRd rd (aluAnd (s.readReg rs1) (s.readReg rs2)))

/-- OR: `x[rd] <- x[rs1] | x[rs2]` (40_arith_logic.md R127). -/
def execOr (rd rs1 rs2 : RegIdx) (s : State) : Host.Outcome State Fault Refusal :=
  s.complete (s.writeRd rd (aluOr (s.readReg rs1) (s.readReg rs2)))

/-- XOR: `x[rd] <- x[rs1] ^ x[rs2]` (40_arith_logic.md R128). -/
def execXor (rd rs1 rs2 : RegIdx) (s : State) : Host.Outcome State Fault Refusal :=
  s.complete (s.writeRd rd (aluXor (s.readReg rs1) (s.readReg rs2)))

/-- ADDI: `x[rd] <- x[rs1] + imm` (40_arith_logic.md R125). -/
def execAddi (rd rs1 : RegIdx) (imm : Word) (s : State) : Host.Outcome State Fault Refusal :=
  s.complete (s.writeRd rd (aluAdd (s.readReg rs1) imm))

/-- ANDI: `x[rd] <- x[rs1] & imm` (40_arith_logic.md R129). -/
def execAndi (rd rs1 : RegIdx) (imm : Word) (s : State) : Host.Outcome State Fault Refusal :=
  s.complete (s.writeRd rd (aluAnd (s.readReg rs1) imm))

/-- ORI: `x[rd] <- x[rs1] | imm` (40_arith_logic.md R130). -/
def execOri (rd rs1 : RegIdx) (imm : Word) (s : State) : Host.Outcome State Fault Refusal :=
  s.complete (s.writeRd rd (aluOr (s.readReg rs1) imm))

/-- XORI: `x[rd] <- x[rs1] ^ imm` (40_arith_logic.md R131). -/
def execXori (rd rs1 : RegIdx) (imm : Word) (s : State) : Host.Outcome State Fault Refusal :=
  s.complete (s.writeRd rd (aluXor (s.readReg rs1) imm))

/-- LUI: `x[rd] <- imm` (40_arith_logic.md R132). -/
def execLui (rd : RegIdx) (imm : Word) (s : State) : Host.Outcome State Fault Refusal :=
  s.complete (s.writeRd rd imm)

/-- AUIPC: `x[rd] <- pc + imm`, `pc` the address of the AUIPC itself (40_arith_logic.md R133). -/
def execAuipc (rd : RegIdx) (imm : Word) (s : State) : Host.Outcome State Fault Refusal :=
  s.complete (s.writeRd rd (aluAdd s.pc imm))

end Sys2Proof.Machine
end

