-- ==== Sys2Proof/Machine/Branch.lean ====
section
/-! DEFINITION. The conditional branches (43_branches.md; common behaviour R160). -/

namespace Sys2Proof.Machine

/-- BEQ: branch if equal (43_branches.md R161). -/
def execBeq (rs1 rs2 : RegIdx) (imm : Word) (s : State) : Host.Outcome State Fault Refusal :=
  s.complete (s.branch (cmpEq (s.readReg rs1) (s.readReg rs2)) imm)

/-- BNE: branch if not equal (43_branches.md R162). -/
def execBne (rs1 rs2 : RegIdx) (imm : Word) (s : State) : Host.Outcome State Fault Refusal :=
  s.complete (s.branch (!cmpEq (s.readReg rs1) (s.readReg rs2)) imm)

/-- BLT: branch if less than, signed (43_branches.md R163). -/
def execBlt (rs1 rs2 : RegIdx) (imm : Word) (s : State) : Host.Outcome State Fault Refusal :=
  s.complete (s.branch (cmpLt (s.readReg rs1) (s.readReg rs2)) imm)

/-- BGE: branch if greater than or equal, signed (43_branches.md R164). -/
def execBge (rs1 rs2 : RegIdx) (imm : Word) (s : State) : Host.Outcome State Fault Refusal :=
  s.complete (s.branch (!cmpLt (s.readReg rs1) (s.readReg rs2)) imm)

/-- BLTU: branch if less than, unsigned (43_branches.md R165). -/
def execBltu (rs1 rs2 : RegIdx) (imm : Word) (s : State) : Host.Outcome State Fault Refusal :=
  s.complete (s.branch (cmpLtu (s.readReg rs1) (s.readReg rs2)) imm)

/-- BGEU: branch if greater than or equal, unsigned (43_branches.md R166). -/
def execBgeu (rs1 rs2 : RegIdx) (imm : Word) (s : State) : Host.Outcome State Fault Refusal :=
  s.complete (s.branch (!cmpLtu (s.readReg rs1) (s.readReg rs2)) imm)

end Sys2Proof.Machine
end

