-- ==== Sys2Proof/Machine/Compare.lean ====
section
/-! DEFINITION. The set-less-than instructions (42_compare.md; common behaviour R150). -/

namespace Sys2Proof.Machine

/-- SLT: `x[rd] <- (x[rs1] <s x[rs2]) ? 1 : 0` (42_compare.md R151). -/
def execSlt (rd rs1 rs2 : RegIdx) (s : State) : Host.Outcome State Fault Refusal :=
  s.complete (s.writeRd rd (aluSlt (s.readReg rs1) (s.readReg rs2)))

/-- SLTU: `x[rd] <- (x[rs1] <u x[rs2]) ? 1 : 0` (42_compare.md R152). -/
def execSltu (rd rs1 rs2 : RegIdx) (s : State) : Host.Outcome State Fault Refusal :=
  s.complete (s.writeRd rd (aluSltu (s.readReg rs1) (s.readReg rs2)))

/-- SLTI: `x[rd] <- (x[rs1] <s imm) ? 1 : 0` (42_compare.md R153). -/
def execSlti (rd rs1 : RegIdx) (imm : Word) (s : State) : Host.Outcome State Fault Refusal :=
  s.complete (s.writeRd rd (aluSlt (s.readReg rs1) imm))

/-- SLTIU: `x[rd] <- (x[rs1] <u imm) ? 1 : 0`, the sign-extended immediate read as unsigned (42_compare.md R154). -/
def execSltiu (rd rs1 : RegIdx) (imm : Word) (s : State) : Host.Outcome State Fault Refusal :=
  s.complete (s.writeRd rd (aluSltu (s.readReg rs1) imm))

end Sys2Proof.Machine
end

