-- ==== Sys2Proof/Machine/Jump.lean ====
section
/-! DEFINITION. The jumps (44_jumps.md; common behaviour R170, alignment R173). -/

namespace Sys2Proof.Machine

/-- JAL: to `pc + imm`, link `pc + 4` (44_jumps.md R171). -/
def execJal (rd : RegIdx) (imm : Word) (s : State) : Host.Outcome State Fault Refusal :=
  s.complete (s.jump rd (s.pc + imm))

/-- JALR: to `(x[rs1] + imm) & ~1`, link `pc + 4` (44_jumps.md R172). -/
def execJalr (rd rs1 : RegIdx) (imm : Word) (s : State) : Host.Outcome State Fault Refusal :=
  s.complete (s.jump rd (s.jalrTarget rs1 imm))

end Sys2Proof.Machine
end

