-- ==== Sys2Proof/Machine/LoadStore.lean ====
section
/-! DEFINITION. The loads and stores (45_loads_stores.md; effective address R180, common behaviour R190). -/

namespace Sys2Proof.Machine

/-- LB: load byte, signed (45_loads_stores.md R181). -/
def execLb (rd rs1 : RegIdx) (imm : Word) (s : State) : Host.Outcome State Fault Refusal :=
  s.complete (s.load rd (s.loadS8 (s.effAddr rs1 imm)))

/-- LH: load halfword, signed (45_loads_stores.md R182). -/
def execLh (rd rs1 : RegIdx) (imm : Word) (s : State) : Host.Outcome State Fault Refusal :=
  s.complete (s.load rd (s.loadS16 (s.effAddr rs1 imm)))

/-- LW: load word (45_loads_stores.md R183). -/
def execLw (rd rs1 : RegIdx) (imm : Word) (s : State) : Host.Outcome State Fault Refusal :=
  s.complete (s.load rd (s.load32 (s.effAddr rs1 imm)))

/-- LBU: load byte, unsigned (45_loads_stores.md R184). -/
def execLbu (rd rs1 : RegIdx) (imm : Word) (s : State) : Host.Outcome State Fault Refusal :=
  s.complete (s.load rd (s.loadU8 (s.effAddr rs1 imm)))

/-- LHU: load halfword, unsigned (45_loads_stores.md R185). -/
def execLhu (rd rs1 : RegIdx) (imm : Word) (s : State) : Host.Outcome State Fault Refusal :=
  s.complete (s.load rd (s.loadU16 (s.effAddr rs1 imm)))

/-- SB: store byte (45_loads_stores.md R186). -/
def execSb (rs1 rs2 : RegIdx) (imm : Word) (s : State) : Host.Outcome State Fault Refusal :=
  s.complete (s.store (s.effAddr rs1 imm) (s.storeBytes8 rs2))

/-- SH: store halfword (45_loads_stores.md R187). -/
def execSh (rs1 rs2 : RegIdx) (imm : Word) (s : State) : Host.Outcome State Fault Refusal :=
  s.complete (s.store (s.effAddr rs1 imm) (s.storeBytes16 rs2))

/-- SW: store word (45_loads_stores.md R188). -/
def execSw (rs1 rs2 : RegIdx) (imm : Word) (s : State) : Host.Outcome State Fault Refusal :=
  s.complete (s.store (s.effAddr rs1 imm) (s.storeBytes32 rs2))

end Sys2Proof.Machine
end

