-- ==== Sys2Proof/Machine/Shift.lean ====
section
/-! DEFINITION. The shift instructions (41_shifts.md; shift amount R140). -/

namespace Sys2Proof.Machine

/-- SLL: `x[rd] <- x[rs1] << u(x[rs2][4:0])` (41_shifts.md R141). -/
def execSll (rd rs1 rs2 : RegIdx) (s : State) : Host.Outcome State Fault Refusal :=
  s.complete (s.writeRd rd (aluSll (s.readReg rs1) (s.readReg rs2)))

/-- SRL: `x[rd] <- x[rs1] >>u u(x[rs2][4:0])` (41_shifts.md R142). -/
def execSrl (rd rs1 rs2 : RegIdx) (s : State) : Host.Outcome State Fault Refusal :=
  s.complete (s.writeRd rd (aluSrl (s.readReg rs1) (s.readReg rs2)))

/-- SRA: `x[rd] <- x[rs1] >>s u(x[rs2][4:0])` (41_shifts.md R143). -/
def execSra (rd rs1 rs2 : RegIdx) (s : State) : Host.Outcome State Fault Refusal :=
  s.complete (s.writeRd rd (aluSra (s.readReg rs1) (s.readReg rs2)))

/-- SLLI: `x[rd] <- x[rs1] << shamt` (41_shifts.md R144). -/
def execSlli (rd rs1 : RegIdx) (imm : Word) (s : State) : Host.Outcome State Fault Refusal :=
  s.complete (s.writeRd rd (aluSll (s.readReg rs1) imm))

/-- SRLI: `x[rd] <- x[rs1] >>u shamt` (41_shifts.md R145). -/
def execSrli (rd rs1 : RegIdx) (imm : Word) (s : State) : Host.Outcome State Fault Refusal :=
  s.complete (s.writeRd rd (aluSrl (s.readReg rs1) imm))

/-- SRAI: `x[rd] <- x[rs1] >>s shamt` (41_shifts.md R146). -/
def execSrai (rd rs1 : RegIdx) (imm : Word) (s : State) : Host.Outcome State Fault Refusal :=
  s.complete (s.writeRd rd (aluSra (s.readReg rs1) imm))

end Sys2Proof.Machine
end

