-- ==== Sys2Proof/Machine/Environment.lean ====
section
/-! DEFINITION. The environment port (46_system.md R201 to R203) and the reference environment `ENV_REF`
(R204 to R208). -/

namespace Sys2Proof.Machine

/-- The decimal digits of `n` before the text `acc`, at most `fuel` of them, with no leading zero. -/
def decimalDigits : Nat → Nat → List Byte → List Byte
  | 0, _, acc => acc
  | fuel + 1, n, acc =>
    if n / 10 = 0 then BitVec.ofNat 8 (0x30 + n % 10) :: acc
    else decimalDigits fuel (n / 10) (BitVec.ofNat 8 (0x30 + n % 10) :: acc)

/-- The ASCII decimal text of `s(v)` (46_system.md R205): ten digits hold any magnitude up to 2^31. -/
def decimalText (v : Word) : List Byte :=
  if v.msb then 0x2d#8 :: decimalDigits 10 (2 ^ 32 - v.toNat) [] else decimalDigits 10 v.toNat []

/-- `ENV_REF`, dispatching on `n = u(x[17])` (46_system.md R204): 1 prints an integer (R205), 10 and 93
exit (R207), 64 prints bytes (R206), any other number fails (R208). -/
def envRef (x : Vector Word 32) (mem : List Host.Cell) (bound : Nat) : EnvAnswer :=
  match x[17].toNat with
  | 1 => .goOn (decimalText x[10])
  | 10 => .exit 0
  | 64 =>
    if x[11].toNat + x[12].toNat ≤ bound then .goOn (Memory.getBytes mem x[11].toNat x[12].toNat)
    else .fail .memoryFault x[11]
  | 93 => .exit x[10]
  | _ => .fail .unsupportedSyscall x[17]

/-- The block's name of an environment's cause (46_system.md R201, 60_exceptions.md R251). -/
def envCause : EnvCause → Cause
  | .unsupportedSyscall => .unsupportedSyscall
  | .memoryFault => .memoryFault

/-- `ENV(x, MEM)` (46_system.md R201). -/
def State.callEnv (s : State) : EnvAnswer :=
  match s.params.env with
  | .reference => envRef s.regs32 s.mem s.params.memBound
  | .other id => Config.env id s.regs32 s.mem s.params.memBound

/-- The effect of each answer (46_system.md R200, R203). -/
def State.answered (s : State) (r : EnvAnswer) : Effect :=
  match r with
  | .goOn bytes => .ok { out := bytes, nextPc := s.seqPc }
  | .exit code => .ok { exit := some code, nextPc := s.seqPc }
  | .fail cause info => .error ⟨envCause cause, info⟩

end Sys2Proof.Machine
end

