-- ==== Sys2Proof/Machine/System.lean ====
section
/-! DEFINITION. FENCE, ECALL and EBREAK (46_system.md). -/

namespace Sys2Proof.Machine

/-- FENCE: `pc <- pc + 4` and nothing else (46_system.md R211). -/
def execFence (s : State) : Host.Outcome State Fault Refusal := s.complete s.advance

/-- ECALL: calls the environment and takes its answer (46_system.md R200). -/
def execEcall (s : State) : Host.Outcome State Fault Refusal := s.complete (s.answered s.callEnv)

/-- The word of EBREAK, its fault's `info` (46_system.md R210). -/
def ebreakWord : Word := 0x00100073

/-- EBREAK: `raise UnsupportedOperation(iw)` (46_system.md R210). -/
def execEbreak (s : State) : Host.Outcome State Fault Refusal :=
  s.complete (.error ⟨.unsupportedOperation, ebreakWord⟩)

end Sys2Proof.Machine
end

