-- ==== Sys2Proof/Machine/Cycle.lean ====
section
/-! DEFINITION. The step cycle (47_step_cycle.md R228): halted check, fetch, decode, execute. -/

namespace Sys2Proof.Machine

/-- `STATUS in {HALT_DONE, HALT_ERR}` (10_state.md R26). -/
def State.halted (s : State) : Bool :=
  match s.status with
  | .haltDone | .haltErr => true
  | .ready | .active => false

/-- Lines 3 to 7 of 47_step_cycle.md R228 for the fetched word: `ILLEGAL` "produces the fault
IllegalInstruction(iw)" (30_encoding.md R97). -/
def State.runWord (s : State) (iw : Word) : Host.Outcome State Fault Refusal :=
  match decode iw with
  | .ok i => exec i s
  | .error (.illegalInstruction w) => s.complete (.error ⟨.illegalInstruction, w⟩)

/-- One step (47_step_cycle.md R228): no change when halted (R234); `HALT_DONE` when there is nothing to
fetch (R237). -/
def State.cycle (s : State) : Host.Outcome State Fault Refusal :=
  if s.halted then .next s
  else
    match s.fetch with
    | some iw => s.runWord iw
    | none => .next { s with status := .haltDone }

end Sys2Proof.Machine
end

