-- ==== Sys2Proof/Machine/Step.lean ====
section
/-! DEFINITION. The host's step command, and the placing of a word for the next step to run. -/

namespace Sys2Proof.Machine

/-- `step` (47_step_cycle.md R228). -/
def step (s : State) : Host.Outcome State Fault Refusal := s.cycle

/-- `s` with the instruction whose bits are `w` where `step` fetches next (log 2, log 11). -/
def State.withFetchWord (s : State) (nbits w : Nat) : State := s.placeWord (tableWord nbits w)

end Sys2Proof.Machine
end

