-- ==== Sys2Proof/Machine/Assembly.lean ====
section
/-! DEFINITION. The assembler-side facts the spec states as functions: the ABI register names
(10_state.md R23), the offset of a label (30_encoding.md R104), and the expansions of the
pseudo-instructions the source names (R105). The assembler itself is outside the block (00_scope.md R5). -/

namespace Sys2Proof.Machine.Assembly

/-- The ABI names of `x0` to `x31` (10_state.md R23). -/
def abiNames : List String :=
  ["zero", "ra", "sp", "gp", "tp", "t0", "t1", "t2", "s0", "s1", "a0", "a1", "a2", "a3", "a4", "a5"]
  ++ ["a6", "a7", "s2", "s3", "s4", "s5", "s6", "s7", "s8", "s9", "s10", "s11", "t3", "t4", "t5", "t6"]

/-- The register an ABI name (or `fp`, the other name of `s0`) stands for. -/
def abiRegister (name : String) : Option RegIdx :=
  if name = "fp" then some 8
  else
    match abiNames.idxOf? name with
    | some i => some (BitVec.ofNat 5 i)
    | none => none

/-- "a branch or JAL at address `A` that names a label at address `L` gets `imm = L - A`"
(30_encoding.md R104). -/
def labelOffset (label address : Word) : Word := label - address

/-- The address of the k-th instruction after expansion (30_encoding.md R104). -/
def addressOf (entry : Word) (k : Nat) : Word := entry + BitVec.ofNat 32 (4 * k)

/-- `nop` (30_encoding.md R105). -/
def nop : List Instr := [.addi 0 0 0]

/-- `mv rd, rs` (30_encoding.md R105). -/
def mv (rd rs : RegIdx) : List Instr := [.addi rd rs 0]

/-- `lo = sext_12(v[11:0])` (30_encoding.md R105). -/
def liLow (v : Word) : Word := (v.extractLsb' 0 12).signExtend 32

/-- The U immediate of `hi = (v - lo)[31:12]` (30_encoding.md R105). -/
def liHigh (v : Word) : Word := (v - liLow v).extractLsb' 12 20 ++ 0#12

/-- `li rd, v`: one word where `v` fits twelve bits or its low part is zero, else two
(30_encoding.md R105). -/
def li (rd : RegIdx) (v : Word) : List Instr :=
  if -2048 ≤ v.toInt ∧ v.toInt ≤ 2047 then [.addi rd 0 v]
  else if liLow v = 0 then [.lui rd (liHigh v)]
  else [.lui rd (liHigh v), .addi rd rd (liLow v)]

end Sys2Proof.Machine.Assembly
end

