-- ==== Sys2Proof/Machine/Units.lean ====
section
/-! DEFINITION. The six units of 47_step_cycle.md R221 to R227 and the dispatch table R229, as a second
machine: a data path routed by one row of control signals per operation. The step of R228 is the
normative one; an obligation says that the two compute the same function. -/

namespace Sys2Proof.Machine.Units

/-! ### Integer ALU (47_step_cycle.md R224) -/

/-- The function select `fn`. -/
inductive AluFn where
  | add | sub | and | or | xor | sll | srl | sra | slt | sltu | passB
  deriving DecidableEq, Repr

/-- The ALU's outputs. -/
structure AluOut where
  result : Word
  eq     : Bool
  lt     : Bool
  ltu    : Bool
  deriving DecidableEq, Repr

/-- The ALU: combinational, raises no fault. -/
def alu (fn : AluFn) (a b : Word) : AluOut where
  result := match fn with
    | .add => aluAdd a b
    | .sub => aluSub a b
    | .and => aluAnd a b
    | .or => aluOr a b
    | .xor => aluXor a b
    | .sll => aluSll a b
    | .srl => aluSrl a b
    | .sra => aluSra a b
    | .slt => boolWord (cmpLt a b)
    | .sltu => boolWord (cmpLtu a b)
    | .passB => b
  eq  := cmpEq a b
  lt  := cmpLt a b
  ltu := cmpLtu a b

/-! ### Load-store address translator (47_step_cycle.md R226) -/

/-- What the translator is asked for: a load of a size and an extension, or a store of a size. -/
inductive Access where
  | load (size : Nat) (signed : Bool)
  | store (size : Nat)
  deriving DecidableEq, Repr

/-- The translator's answer: the access refused with `ea`, the extended load value, or the admitted
write. -/
inductive Translated where
  | refused (ea : Word)
  | value (v : Word)
  | write (w : MemWrite)
  deriving DecidableEq, Repr

/-- The little-endian value of bytes. -/
def leNat : List Byte → Nat
  | [] => 0
  | b :: bs => b.toNat + 256 * leNat bs

/-- The `n` low bytes of a word, least significant first. -/
def lowBytes (v : Word) : Nat → Nat → List Byte
  | _, 0 => []
  | k, n + 1 => v.extractLsb' (8 * k) 8 :: lowBytes v (k + 1) n

/-- The extension of an `n`-byte value to 32 bits. -/
def extend (n : Nat) (signed : Bool) (v : Nat) : Word :=
  if signed then (BitVec.ofNat (8 * n) v).signExtend 32 else (BitVec.ofNat (8 * n) v).zeroExtend 32

/-- The translator: `ea = base + imm`, the bound check, then the access. -/
def translate (s : State) (base imm storeData : Word) : Access → Translated
  | .load n signed =>
    if (base + imm).toNat + n ≤ s.params.memBound then
      .value (extend n signed (leNat (Memory.getBytes s.mem (base + imm).toNat n)))
    else .refused (base + imm)
  | .store n =>
    if (base + imm).toNat + n ≤ s.params.memBound then
      .write ⟨(base + imm).toNat, lowBytes storeData 0 n⟩
    else .refused (base + imm)

/-! ### PC sequencer (47_step_cycle.md R225) -/

/-- The PC sequencer's target: none for sequential flow, `pc + imm`, or `(rdata1 + imm) & ~1`. -/
inductive TargetSel where
  | seq
  | pcRelative
  | registerIndirect
  deriving DecidableEq, Repr

/-- The control transfer target. -/
def target (s : State) (rdata1 imm : Word) : TargetSel → Word
  | .seq => s.pc + 4
  | .pcRelative => s.pc + imm
  | .registerIndirect => (rdata1 + imm) &&& ~~~1

/-- The `misaligned` report: the target is not a multiple of 4. -/
def misaligned (t : Word) : Bool := decide (t.toNat % 4 ≠ 0)

/-! ### Control-flow dispatcher (47_step_cycle.md R227, R229) -/

/-- The ALU's `a` operand. -/
inductive ASel where
  | zero | rdata1 | pc
  deriving DecidableEq, Repr

/-- The ALU's `b` operand. -/
inductive BSel where
  | rdata2 | imm
  deriving DecidableEq, Repr

/-- When the target is taken. -/
inductive TakenSel where
  | never | always | eq | ne | lt | ge | ltu | geu
  deriving DecidableEq, Repr

/-- What is written to `x[rd]`. -/
inductive WriteSel where
  | nothing | result | link | loaded
  deriving DecidableEq, Repr

/-- What else the operation does. -/
inductive Special where
  | none | environment | unsupported
  deriving DecidableEq, Repr

/-- One row of the dispatch table (47_step_cycle.md R229). -/
structure Control where
  a       : ASel := .zero
  b       : BSel := .imm
  fn      : AluFn := .passB
  access  : Option Access := none
  write   : WriteSel := .nothing
  sel     : TargetSel := .seq
  taken   : TakenSel := .never
  special : Special := .none
  deriving DecidableEq, Repr

/-- A register-register row. -/
def rowR (fn : AluFn) : Control := { a := .rdata1, b := .rdata2, fn := fn, write := .result }
/-- A register-immediate row. -/
def rowI (fn : AluFn) : Control := { a := .rdata1, b := .imm, fn := fn, write := .result }
/-- A branch row. -/
def rowB (taken : TakenSel) : Control := { a := .rdata1, b := .rdata2, sel := .pcRelative, taken := taken }
/-- A load row. -/
def rowL (n : Nat) (signed : Bool) : Control := { access := some (.load n signed), write := .loaded }
/-- A store row. -/
def rowS (n : Nat) : Control := { access := some (.store n) }

/-- The dispatch table (47_step_cycle.md R229). -/
def control : Mnemonic → Control
  | .add => rowR .add
  | .sub => rowR .sub
  | .and => rowR .and
  | .or => rowR .or
  | .xor => rowR .xor
  | .sll => rowR .sll
  | .srl => rowR .srl
  | .sra => rowR .sra
  | .slt => rowR .slt
  | .sltu => rowR .sltu
  | .addi => rowI .add
  | .andi => rowI .and
  | .ori => rowI .or
  | .xori => rowI .xor
  | .slli => rowI .sll
  | .srli => rowI .srl
  | .srai => rowI .sra
  | .slti => rowI .slt
  | .sltiu => rowI .sltu
  | .lui => { a := .zero, b := .imm, fn := .passB, write := .result }
  | .auipc => { a := .pc, b := .imm, fn := .add, write := .result }
  | .beq => rowB .eq
  | .bne => rowB .ne
  | .blt => rowB .lt
  | .bge => rowB .ge
  | .bltu => rowB .ltu
  | .bgeu => rowB .geu
  | .jal => { write := .link, sel := .pcRelative, taken := .always }
  | .jalr => { write := .link, sel := .registerIndirect, taken := .always }
  | .lb => rowL 1 true
  | .lh => rowL 2 true
  | .lw => rowL 4 true
  | .lbu => rowL 1 false
  | .lhu => rowL 2 false
  | .sb => rowS 1
  | .sh => rowS 2
  | .sw => rowS 4
  | .fence => {}
  | .ecall => { special := .environment }
  | .ebreak => { special := .unsupported }

/-- The `transfer` signal, from the ALU's comparison bits. -/
def transfer (o : AluOut) : TakenSel → Bool
  | .never => false
  | .always => true
  | .eq => o.eq
  | .ne => !o.eq
  | .lt => o.lt
  | .ge => !o.lt
  | .ltu => o.ltu
  | .geu => !o.ltu

/-- What the dispatcher collects for one operation: a fault, or the delta of its row. -/
def collect (s : State) (iw : Word) (d : Decoded) (c : Control) : Effect :=
  let rdata1 := s.readReg d.rs1
  let rdata2 := s.readReg d.rs2
  let o := alu c.fn
    (match c.a with | .zero => 0 | .rdata1 => rdata1 | .pc => s.pc)
    (match c.b with | .rdata2 => rdata2 | .imm => d.imm)
  let go := transfer o c.taken
  let t := target s rdata1 d.imm c.sel
  let next := if go then t else s.pc + 4
  let mem := c.access.map (translate s rdata1 d.imm rdata2)
  match c.special, mem with
  | .unsupported, _ => .error ⟨.unsupportedOperation, iw⟩
  | .environment, _ =>
    match s.callEnv with
    | .goOn bytes => .ok { out := bytes, nextPc := next }
    | .exit code => .ok { exit := some code, nextPc := next }
    | .fail cause info => .error ⟨envCause cause, info⟩
  | .none, some (.refused ea) => .error ⟨.memoryFault, ea⟩
  | .none, some (.write w) => .ok { store := some w, nextPc := next }
  | .none, some (.value v) => .ok { reg := some (d.rd, v), nextPc := next }
  | .none, none =>
    if go && misaligned t then .error ⟨.misalignedTarget, t⟩
    else
      .ok { reg := match c.write with
              | .nothing | .loaded => none
              | .result => some (d.rd, o.result)
              | .link => some (d.rd, s.pc + 4)
            nextPc := next }

/-- One step of the units' data path (47_step_cycle.md R221). -/
def unitStep (s : State) : State :=
  if s.halted then s
  else
    match s.fetch with
    | none => { s with status := .haltDone }
    | some iw =>
      match (decodeRecord iw).op with
      | none => s.apply (.error ⟨.illegalInstruction, iw⟩)
      | some m => s.apply (collect s iw (decodeRecord iw) (control m))

end Sys2Proof.Machine.Units
end

