-- ==== Sys2Proof/Machine/Commands.lean ====
section
/-! DEFINITION. The host's commands other than one `step`: `run`, `reset` and the observation port
(47_step_cycle.md R232, R233, R235). -/

namespace Sys2Proof.Machine

/-- `reset`: every piece of state to its reset value, the parameters kept (47_step_cycle.md R233,
70_reset_and_hazards.md R291). -/
def resetCommand (s : State) : State := State.ofParams s.params

/-- `run` under fuel: `step` repeated until halted (47_step_cycle.md R232: "A model runs under fuel"; log 13). -/
def runFor : Nat → State → Host.Outcome State Fault Refusal
  | 0, s => .next s
  | k + 1, s =>
    if s.halted then .next s
    else
      match step s with
      | .next t => runFor k t
      | .fault r => .fault r
      | .refused r => .refused r

/-- The commands the host issues, one at a time (47_step_cycle.md R227, R232, R236). -/
inductive Command where
  | step
  | run (fuel : Nat)
  | reset
  deriving DecidableEq, Repr

/-- What a command does to the block. -/
def command (c : Command) (s : State) : Host.Outcome State Fault Refusal :=
  match c with
  | .step => Machine.step s
  | .run fuel => runFor fuel s
  | .reset => .next (resetCommand s)

/-- Commands one after another. -/
def commands : List Command → State → Host.Outcome State Fault Refusal
  | [], s => .next s
  | c :: cs, s =>
    match command c s with
    | .next t => commands cs t
    | .fault r => .fault r
    | .refused r => .refused r

/-- What the host reads between steps (47_step_cycle.md R235). -/
structure Observation where
  currentPc : Word
  nextWord  : Option Word
  registers : Vector Word 32
  stdout    : List Byte
  result    : Option Word
  status    : Status
  fault     : Option FaultRecord
  deriving DecidableEq, Repr

/-- The observation port: a projection of the state, "without changing anything" (47_step_cycle.md R235). -/
def observe (s : State) : Observation where
  currentPc := s.pc
  nextWord  := s.fetch
  registers := s.regs32
  stdout    := s.stdout
  result    := s.exitCode
  status    := s.status
  fault     := s.fault

/-- The host reads the exit code "as a signed integer `s(code)`" (10_state.md R27). -/
def exitResult (s : State) : Option Int := s.exitCode.map (·.toInt)

/-- The numeric codes of the causes (60_exceptions.md R251, 92_eei_decisions.md D17). -/
def Cause.code : Cause → Nat
  | .memoryFault => 1
  | .unsupportedSyscall => 2
  | .illegalInstruction => 3
  | .unsupportedOperation => 4
  | .misalignedTarget => 5

end Sys2Proof.Machine
end

