-- ==== Sys2Proof/Safety.lean ====
section
/-! DEFINITION. The terms claims use: legal parameters, the invariant of a run, reachable states, and
what an instruction leaves changed and unchanged. -/

namespace Sys2Proof

open Machine

/-- The valid instruction range, as a condition on natural numbers (10_state.md R38). -/
def InValidRange (p : Params) (a : Word) : Prop :=
  p.entry.toNat ≤ a.toNat ∧ a.toNat < p.entry.toNat + 4 * p.prog.length

/-- The constraints on the parameters (00_scope.md R7), `INIT_MEM` in canonical form. -/
structure Params.Wf (p : Params) : Prop where
  entryAligned : p.entry.toNat % 4 = 0
  progFits     : p.entry.toNat + 4 * p.prog.length ≤ 2 ^ 32
  boundFits    : p.memBound ≤ 2 ^ 32
  initCanonical : Memory.wf p.initMem = true
  initWithin   : Memory.within p.memBound p.initMem = true

end Sys2Proof

namespace Sys2Proof.Machine

/-- What holds of every state of a run (10_state.md R26 to R28, R36, R38; 47_step_cycle.md R237), with
the canonical form of the memory. -/
structure State.Inv (s : State) : Prop where
  paramsWf       : s.params.Wf
  memCanonical   : Memory.wf s.mem = true
  memWithin      : Memory.within s.params.memBound s.mem = true
  pcAligned      : s.pc.toNat % 4 = 0
  readyIsReset   : s.status = .ready → s = State.ofParams s.params
  activeInRange  : s.status = .active → InValidRange s.params s.pc
  errInRange     : s.status = .haltErr → InValidRange s.params s.pc
  doneHasReason  : s.status = .haltDone → s.exitCode.isSome ∨ ¬ InValidRange s.params s.pc
  faultIffErr    : s.fault.isSome ↔ s.status = .haltErr
  exitOnlyDone   : s.exitCode.isSome → s.status = .haltDone

/-- The states a block with parameters `p` reaches under some sequence of host commands. -/
def Reachable (p : Params) (s : State) : Prop := ∃ cs, commands cs (State.ofParams p) = .next s

/-- `STATUS` after a completed instruction that delivered no exit code (47_step_cycle.md R231). -/
def StatusByRange (p : Params) (pc : Word) (st : Status) : Prop :=
  (InValidRange p pc → st = .active) ∧ (¬ InValidRange p pc → st = .haltDone)

/-- A completed instruction moved the PC to `pc` and left the exit code, the fault record, the output and
the parameters alone. -/
structure MovesTo (s t : State) (pc : Word) : Prop where
  pcIs     : t.pc = pc
  statusIs : StatusByRange s.params pc t.status
  exitCode : t.exitCode = s.exitCode
  fault    : t.fault = s.fault
  stdout   : t.stdout = s.stdout
  params   : t.params = s.params

/-- No register changed. -/
def RegsKept (s t : State) : Prop := ∀ r, t.readReg r = s.readReg r

/-- Register `rd` holds `v` and no other register changed; register 0 reads as zero whatever is written
(10_state.md R21). -/
def RegWritten (s t : State) (rd : RegIdx) (v : Word) : Prop :=
  ∀ r, t.readReg r = if r = 0 then 0 else if r = rd then v else s.readReg r

/-- No byte of memory changed. -/
def MemKept (s t : State) : Prop := ∀ a, t.byte a = s.byte a

/-- The bytes `bs` stand at `ea`, `ea+1`, ... and no other byte changed (20_memory.md R55). -/
def MemWritten (s t : State) (ea : Nat) (bs : List Byte) : Prop :=
  ∀ a, t.byte a = if ea ≤ a ∧ a < ea + bs.length then bs.getD (a - ea) 0 else s.byte a

/-- `s` after a fault: `FAULT` and `STATUS` written, all else as before (60_exceptions.md R255, R256). -/
def faulted (s : State) (cause : Cause) (info : Word) : State :=
  { s with fault := some ⟨cause, info⟩, status := .haltErr }

end Sys2Proof.Machine
end

