-- ==== Sys2Proof/Certificates/Slice0/Obligations.lean ====
section
/-! DEFINITION. The statements about the model, from the numbered rules of the spec. -/

namespace Sys2Proof.Claims

open Sys2Proof.Machine

/-! ### Shapes of statement -/

/-- A register-register instruction: every word of its row is it, and it writes `f x[rs1] x[rs2]` to
`x[rd]`, advances the PC by 4 and changes nothing else. -/
def RegReg (matchBits : Word) (mk : RegIdx → RegIdx → RegIdx → Instr) (result : Word → Word → Word → Prop) : Prop :=
  (∀ w : Word, w &&& 0xfe00707f = matchBits →
    decode w = .ok (mk (w.extractLsb' 7 5) (w.extractLsb' 15 5) (w.extractLsb' 20 5))) ∧
  ∀ (rd rs1 rs2 : RegIdx) (s : State), ∃ t v, exec (mk rd rs1 rs2) s = .next t ∧
    result (s.readReg rs1) (s.readReg rs2) v ∧ RegWritten s t rd v ∧ MemKept s t ∧ MovesTo s t (s.pc + 4)

/-- A register-immediate instruction with the sign-extended 12-bit I immediate. -/
def RegImm (matchBits : Word) (mk : RegIdx → RegIdx → Word → Instr) (result : Word → Word → Word → Prop) : Prop :=
  (∀ w : Word, w &&& 0x0000707f = matchBits →
    decode w = .ok (mk (w.extractLsb' 7 5) (w.extractLsb' 15 5) ((w.extractLsb' 20 12).signExtend 32))) ∧
  ∀ (rd rs1 : RegIdx) (imm : Word) (s : State), ∃ t v, exec (mk rd rs1 imm) s = .next t ∧
    result (s.readReg rs1) imm v ∧ RegWritten s t rd v ∧ MemKept s t ∧ MovesTo s t (s.pc + 4)

/-- An immediate shift by the unsigned 5-bit field at bits 24:20. -/
def RegShift (matchBits : Word) (mk : RegIdx → RegIdx → Word → Instr) (result : Word → Nat → Word → Prop) : Prop :=
  (∀ w : Word, w &&& 0xfe00707f = matchBits →
    decode w = .ok (mk (w.extractLsb' 7 5) (w.extractLsb' 15 5) ((w.extractLsb' 20 5).zeroExtend 32))) ∧
  ∀ (rd rs1 shamt : RegIdx) (s : State), ∃ t v, exec (mk rd rs1 (shamt.zeroExtend 32)) s = .next t ∧
    result (s.readReg rs1) shamt.toNat v ∧ RegWritten s t rd v ∧ MemKept s t ∧ MovesTo s t (s.pc + 4)

/-- A conditional branch (43_branches.md R160): not taken, it only advances; taken, it goes to the
aligned target `pc + imm` or faults with `MisalignedTarget`. -/
def Branch (matchBits : Word) (mk : RegIdx → RegIdx → Word → Instr) (cond : Word → Word → Prop) : Prop :=
  (∀ w : Word, w &&& 0x0000707f = matchBits →
    decode w = .ok (mk (w.extractLsb' 15 5) (w.extractLsb' 20 5)
      ((w.extractLsb' 31 1 ++ w.extractLsb' 7 1 ++ w.extractLsb' 25 6 ++ w.extractLsb' 8 4 ++ 0#1).signExtend 32))) ∧
  ∀ (rs1 rs2 : RegIdx) (imm : Word) (s : State),
    (¬ cond (s.readReg rs1) (s.readReg rs2) →
      ∃ t, exec (mk rs1 rs2 imm) s = .next t ∧ RegsKept s t ∧ MemKept s t ∧ MovesTo s t (s.pc + 4)) ∧
    (cond (s.readReg rs1) (s.readReg rs2) → (s.pc + imm).toNat % 4 = 0 →
      ∃ t, exec (mk rs1 rs2 imm) s = .next t ∧ RegsKept s t ∧ MemKept s t ∧ MovesTo s t (s.pc + imm)) ∧
    (cond (s.readReg rs1) (s.readReg rs2) → (s.pc + imm).toNat % 4 ≠ 0 →
      exec (mk rs1 rs2 imm) s = .next (faulted s .misalignedTarget (s.pc + imm)))

/-- A load of `n` bytes (45_loads_stores.md R180, R190): admitted, it writes the extended little-endian
value to `x[rd]`; refused, it faults with `MemoryFault(ea)`. -/
def Load (matchBits : Word) (mk : RegIdx → RegIdx → Word → Instr) (n : Nat) (value : (Nat → Byte) → Nat → Word) : Prop :=
  (∀ w : Word, w &&& 0x0000707f = matchBits →
    decode w = .ok (mk (w.extractLsb' 7 5) (w.extractLsb' 15 5) ((w.extractLsb' 20 12).signExtend 32))) ∧
  ∀ (rd rs1 : RegIdx) (imm : Word) (s : State),
    ((s.readReg rs1 + imm).toNat + n ≤ s.params.memBound →
      ∃ t, exec (mk rd rs1 imm) s = .next t ∧ RegWritten s t rd (value s.byte (s.readReg rs1 + imm).toNat) ∧
        MemKept s t ∧ MovesTo s t (s.pc + 4)) ∧
    (s.params.memBound < (s.readReg rs1 + imm).toNat + n →
      exec (mk rd rs1 imm) s = .next (faulted s .memoryFault (s.readReg rs1 + imm)))

/-- A store of the low bytes of `x[rs2]` (45_loads_stores.md R180, R190): admitted, those bytes and no
others change; refused, nothing is written and it faults with `MemoryFault(ea)`. The premise is the
canonical form of the memory list, which every step keeps (`Obligations.StepKeepsInvariant`). -/
def Store (matchBits : Word) (mk : RegIdx → RegIdx → Word → Instr) (n : Nat) (bytes : Word → List Byte) : Prop :=
  (∀ w : Word, w &&& 0x0000707f = matchBits →
    decode w = .ok (mk (w.extractLsb' 15 5) (w.extractLsb' 20 5)
      ((w.extractLsb' 25 7 ++ w.extractLsb' 7 5).signExtend 32))) ∧
  ∀ (rs1 rs2 : RegIdx) (imm : Word) (s : State),
    (Memory.wf s.mem = true → (s.readReg rs1 + imm).toNat + n ≤ s.params.memBound →
      ∃ t, exec (mk rs1 rs2 imm) s = .next t ∧ (bytes (s.readReg rs2)).length = n ∧
        MemWritten s t (s.readReg rs1 + imm).toNat (bytes (s.readReg rs2)) ∧ RegsKept s t ∧ MovesTo s t (s.pc + 4)) ∧
    (s.params.memBound < (s.readReg rs1 + imm).toNat + n →
      exec (mk rs1 rs2 imm) s = .next (faulted s .memoryFault (s.readReg rs1 + imm)))

/-- `(c) ? 1 : 0` as a relation. -/
def IsOneIff (c : Prop) (v : Word) : Prop := (c → v = 1) ∧ (¬ c → v = 0)

/-- The illegal words, written out as 30_encoding.md R97's table has them. -/
def IllegalShape (w : Word) : Prop :=
  let op := w.extractLsb' 0 7
  let f3 := w.extractLsb' 12 3
  let f7 := w.extractLsb' 25 7
  w.extractLsb' 0 2 ≠ 0b11#2 ∨
  op ∉ [0b0110111#7, 0b0010111#7, 0b1101111#7, 0b1100111#7, 0b1100011#7, 0b0000011#7, 0b0100011#7,
        0b0010011#7, 0b0110011#7, 0b0001111#7, 0b1110011#7] ∨
  (op = 0b1100111#7 ∧ f3 ≠ 0b000#3) ∨
  (op = 0b1100011#7 ∧ f3 ∈ [0b010#3, 0b011#3]) ∨
  (op = 0b0000011#7 ∧ f3 ∈ [0b011#3, 0b110#3, 0b111#3]) ∨
  (op = 0b0100011#7 ∧ f3 ∈ [0b011#3, 0b100#3, 0b101#3, 0b110#3, 0b111#3]) ∨
  (op = 0b0010011#7 ∧ f3 = 0b001#3 ∧ f7 ≠ 0b0000000#7) ∨
  (op = 0b0010011#7 ∧ f3 = 0b101#3 ∧ f7 ∉ [0b0000000#7, 0b0100000#7]) ∨
  (op = 0b0110011#7 ∧ f7 ∉ [0b0000000#7, 0b0100000#7]) ∨
  (op = 0b0110011#7 ∧ f7 = 0b0100000#7 ∧ f3 ∉ [0b000#3, 0b101#3]) ∨
  (op = 0b0001111#7 ∧ f3 ≠ 0b000#3) ∨
  (op = 0b1110011#7 ∧ w ≠ 0x00000073 ∧ w ≠ 0x00100073)

/-- The destination register an instruction's form has, if any (10_state.md R22). -/
def destination : Instr → Option RegIdx
  | .lui rd _ | .auipc rd _ | .jal rd _ | .jalr rd _ _ => some rd
  | .lb rd _ _ | .lh rd _ _ | .lw rd _ _ | .lbu rd _ _ | .lhu rd _ _ => some rd
  | .addi rd _ _ | .slti rd _ _ | .sltiu rd _ _ | .xori rd _ _ | .ori rd _ _ | .andi rd _ _ => some rd
  | .slli rd _ _ | .srli rd _ _ | .srai rd _ _ => some rd
  | .add rd _ _ | .sub rd _ _ | .sll rd _ _ | .slt rd _ _ | .sltu rd _ _ | .xor rd _ _ | .srl rd _ _
  | .sra rd _ _ | .or rd _ _ | .and rd _ _ => some rd
  | .beq _ _ _ | .bne _ _ _ | .blt _ _ _ | .bge _ _ _ | .bltu _ _ _ | .bgeu _ _ _ => none
  | .sb _ _ _ | .sh _ _ _ | .sw _ _ _ | .fence | .ecall | .ebreak => none

/-- The same instruction with destination register 0. -/
def withRdZero : Instr → Instr
  | .lui _ imm => .lui 0 imm
  | .auipc _ imm => .auipc 0 imm
  | .jal _ imm => .jal 0 imm
  | .jalr _ rs1 imm => .jalr 0 rs1 imm
  | .lb _ rs1 imm => .lb 0 rs1 imm
  | .lh _ rs1 imm => .lh 0 rs1 imm
  | .lw _ rs1 imm => .lw 0 rs1 imm
  | .lbu _ rs1 imm => .lbu 0 rs1 imm
  | .lhu _ rs1 imm => .lhu 0 rs1 imm
  | .addi _ rs1 imm => .addi 0 rs1 imm
  | .slti _ rs1 imm => .slti 0 rs1 imm
  | .sltiu _ rs1 imm => .sltiu 0 rs1 imm
  | .xori _ rs1 imm => .xori 0 rs1 imm
  | .ori _ rs1 imm => .ori 0 rs1 imm
  | .andi _ rs1 imm => .andi 0 rs1 imm
  | .slli _ rs1 imm => .slli 0 rs1 imm
  | .srli _ rs1 imm => .srli 0 rs1 imm
  | .srai _ rs1 imm => .srai 0 rs1 imm
  | .add _ rs1 rs2 => .add 0 rs1 rs2
  | .sub _ rs1 rs2 => .sub 0 rs1 rs2
  | .sll _ rs1 rs2 => .sll 0 rs1 rs2
  | .slt _ rs1 rs2 => .slt 0 rs1 rs2
  | .sltu _ rs1 rs2 => .sltu 0 rs1 rs2
  | .xor _ rs1 rs2 => .xor 0 rs1 rs2
  | .srl _ rs1 rs2 => .srl 0 rs1 rs2
  | .sra _ rs1 rs2 => .sra 0 rs1 rs2
  | .or _ rs1 rs2 => .or 0 rs1 rs2
  | .and _ rs1 rs2 => .and 0 rs1 rs2
  | .beq rs1 rs2 imm => .beq rs1 rs2 imm
  | .bne rs1 rs2 imm => .bne rs1 rs2 imm
  | .blt rs1 rs2 imm => .blt rs1 rs2 imm
  | .bge rs1 rs2 imm => .bge rs1 rs2 imm
  | .bltu rs1 rs2 imm => .bltu rs1 rs2 imm
  | .bgeu rs1 rs2 imm => .bgeu rs1 rs2 imm
  | .sb rs1 rs2 imm => .sb rs1 rs2 imm
  | .sh rs1 rs2 imm => .sh rs1 rs2 imm
  | .sw rs1 rs2 imm => .sw rs1 rs2 imm
  | .fence => .fence
  | .ecall => .ecall
  | .ebreak => .ebreak

/-- Is the instruction a load? -/
def isLoad : Instr → Bool
  | .lb _ _ _ | .lh _ _ _ | .lw _ _ _ | .lbu _ _ _ | .lhu _ _ _ => true
  | _ => false

/-- Is the instruction a store? -/
def isStore : Instr → Bool
  | .sb _ _ _ | .sh _ _ _ | .sw _ _ _ => true
  | _ => false

/-- The causes the table of 60_exceptions.md R253 allows an instruction, in state `s` for what the
environment returns. -/
def mayRaise (s : State) : Instr → Cause → Prop
  | .beq _ _ _, c | .bne _ _ _, c | .blt _ _ _, c | .bge _ _ _, c | .bltu _ _ _, c | .bgeu _ _ _, c
  | .jal _ _, c | .jalr _ _ _, c => c = .misalignedTarget
  | .lb _ _ _, c | .lh _ _ _, c | .lw _ _ _, c | .lbu _ _ _, c | .lhu _ _ _, c
  | .sb _ _ _, c | .sh _ _ _, c | .sw _ _ _, c => c = .memoryFault
  | .ecall, c => (∃ e info, s.callEnv = .fail e info ∧ c = envCause e) ∧ c ∈ [.unsupportedSyscall, .memoryFault]
  | .ebreak, c => c = .unsupportedOperation
  | _, _ => False

/-- The target of a control transfer the instruction takes in state `s`, if it takes one
(43_branches.md R160, 44_jumps.md R171, R172). -/
def takenTarget (s : State) : Instr → Option Word
  | .beq rs1 rs2 imm => if s.readReg rs1 = s.readReg rs2 then some (s.pc + imm) else none
  | .bne rs1 rs2 imm => if s.readReg rs1 ≠ s.readReg rs2 then some (s.pc + imm) else none
  | .blt rs1 rs2 imm => if (s.readReg rs1).toInt < (s.readReg rs2).toInt then some (s.pc + imm) else none
  | .bge rs1 rs2 imm => if (s.readReg rs2).toInt ≤ (s.readReg rs1).toInt then some (s.pc + imm) else none
  | .bltu rs1 rs2 imm => if (s.readReg rs1).toNat < (s.readReg rs2).toNat then some (s.pc + imm) else none
  | .bgeu rs1 rs2 imm => if (s.readReg rs2).toNat ≤ (s.readReg rs1).toNat then some (s.pc + imm) else none
  | .jal _ imm => some (s.pc + imm)
  | .jalr _ rs1 imm => some ((s.readReg rs1 + imm) &&& 0xfffffffe)
  | _ => none

/-- `s` is a state in which the next step fetches `iw`: not halted, the PC in the valid range, and `iw`
the word of the program store at it (20_memory.md R58; in a run the PC is aligned and the division exact,
elsewhere log 12). -/
structure Fetches (s : State) (iw : Word) : Prop where
  running : s.status = .ready ∨ s.status = .active
  inRange : InValidRange s.params s.pc
  word    : s.params.prog[(s.pc.toNat - s.params.entry.toNat) / 4]? = some iw

/-- The value of ASCII decimal digits. -/
def digitsValue (ds : List Byte) : Nat := ds.foldl (fun n d => 10 * n + (d.toNat - 0x30)) 0

/-- Instructions executed one after another (30_encoding.md R105). -/
def execAll : List Instr → State → Host.Outcome State Fault Refusal
  | [], s => .next s
  | i :: is, s =>
    match exec i s with
    | .next t => execAll is t
    | .fault r => .fault r
    | .refused r => .refused r

end Sys2Proof.Claims

open Sys2Proof Sys2Proof.Machine Sys2Proof.Claims

/-! ### Encoding and decoding -/

/-- Decoding the encoding of a well-formed instruction gives it back, whatever its operands
(30_encoding.md R82 to R96). -/
def Obligations.DecodeOfEncodeIsInstruction : Prop :=
  ∀ i : Instr, i.wf = true → decode (encode i) = .ok i

/-- Encoding what a word decodes to gives the word back, for every word that is not FENCE. -/
def Obligations.EncodeOfDecodeIsWord : Prop :=
  ∀ (w : Word) (i : Instr), decode w = .ok i → i ≠ .fence → encode i = w

/-- 30_encoding.md R100: FENCE's other fields are not examined, and in no other row is a bit ignored. -/
def Obligations.OnlyFenceIgnoresBits : Prop :=
  (∀ w : Word, w.extractLsb' 0 7 = 0b0001111#7 → w.extractLsb' 12 3 = 0b000#3 → decode w = .ok .fence) ∧
  (∀ w w' : Word, ∀ i, decode w = .ok i → decode w' = .ok i → i ≠ .fence → w = w')

/-- Whatever a word decodes to carries an immediate in the range of its format (30_encoding.md R88 to R93). -/
def Obligations.DecodedInstructionIsWellFormed : Prop :=
  ∀ (w : Word) (i : Instr), decode w = .ok i → i.wf = true

/-- Words written out from the encodings of the spec decode to the instructions they stand for. -/
def Obligations.SampleWordsDecode : Prop :=
  decode 0x002081b3 = .ok (.add 3 1 2) ∧ decode 0x402081b3 = .ok (.sub 3 1 2) ∧
  decode 0x00500293 = .ok (.addi 5 0 5) ∧ decode 0x123452b7 = .ok (.lui 5 0x12345000) ∧
  decode 0x4040d113 = .ok (.srai 2 1 4) ∧ decode 0xfff0b113 = .ok (.sltiu 2 1 0xffffffff) ∧
  decode 0xfe000ce3 = .ok (.beq 0 0 0xfffffff8) ∧ decode 0xff9ff06f = .ok (.jal 0 0xfffffff8) ∧
  decode 0x004280e7 = .ok (.jalr 1 5 4) ∧ decode 0x0010a103 = .ok (.lw 2 1 1) ∧
  decode 0xfe20ae23 = .ok (.sw 1 2 0xfffffffc) ∧ decode 0x8330000f = .ok .fence ∧
  decode 0x00000073 = .ok .ecall ∧ decode 0x00100073 = .ok .ebreak

/-- 30_encoding.md R95: there are 40 rows and no word selects two of them. -/
def Obligations.OpcodeRowsPairwiseDisjoint : Prop :=
  opcodeRows.length = 40 ∧
  ∀ (w : Word) (r r' : Row), r ∈ opcodeRows → r' ∈ opcodeRows → r.selects w = true → r'.selects w = true → r = r'

/-- 30_encoding.md R97: the illegal words are exactly those of its table, and executing one raises
`IllegalInstruction(iw)` and halts the block with the PC unchanged. -/
def Obligations.IllegalWordsAreExactlyTheListedAndFault : Prop :=
  (∀ w : Word, decode w = .error (.illegalInstruction w) ↔ IllegalShape w) ∧
  (∀ (s : State) (w : Word), Fetches s w → IllegalShape w →
    step s = .next (faulted s .illegalInstruction w))

/-! ### The step -/

/-- When the word at the PC decodes to an instruction, the step is that instruction's execution
(47_step_cycle.md R228 lines 1 to 4). -/
def Obligations.StepRunsDecodedInstruction : Prop :=
  ∀ (s : State) (iw : Word) (i : Instr), Fetches s iw → decode iw = .ok i → step s = exec i s

/-- A word placed by `withFetchWord` is the one the next step runs, from every state, and the placing
changes neither registers, memory nor PC (the model's own operation, log 11). -/
def Obligations.PlacedWordRunsNext : Prop :=
  ∀ (s : State) (w : Word) (i : Instr), decode w = .ok i →
    step (s.withFetchWord 32 w.toNat) = exec i (s.withFetchWord 32 w.toNat) ∧
    (s.withFetchWord 32 w.toNat).pc = s.pc ∧ (s.withFetchWord 32 w.toNat).regs = s.regs ∧
    (s.withFetchWord 32 w.toNat).mem = s.mem

/-- 47_step_cycle.md R234: in a halted state neither `step` nor `run` changes anything; `reset` leaves it. -/
def Obligations.HaltedBlockLeavesOnlyByReset : Prop :=
  ∀ s : State, s.status = .haltDone ∨ s.status = .haltErr →
    step s = .next s ∧ (∀ fuel, runFor fuel s = .next s) ∧ (resetCommand s).status = .ready

/-- 47_step_cycle.md R237: in the states of a run, a step finds no word only when `STATUS = READY` and
`N_INSTR = 0`, and then changes nothing but `STATUS <- HALT_DONE`. -/
def Obligations.EmptyProgramHaltsDone : Prop :=
  ∀ s : State, s.Inv → s.status = .ready ∨ s.status = .active →
    (s.fetch = none ↔ s.status = .ready ∧ s.params.prog.length = 0) ∧
    (s.fetch = none → step s = .next { s with status := .haltDone })

/-- 47_step_cycle.md R231: after a completed instruction that delivered no exit code the block is
`HALT_DONE` when the new PC is outside the valid range and `ACTIVE` when it is inside, `EXIT_CODE` is as
before, and the instruction has had the whole effect it has in a larger program where its new PC is in
range. -/
def Obligations.PostStepRangeCheck : Prop :=
  ∀ (i : Instr) (s t : State), exec i s = .next t → t.status ≠ .haltErr →
    (∀ code, i = .ecall → s.callEnv ≠ .exit code) →
    StatusByRange s.params t.pc t.status ∧ t.exitCode = s.exitCode ∧
    ∀ (entry : Word) (prog : List Word), ∃ u,
      exec i { s with params := { s.params with entry := entry, prog := prog } } = .next u ∧
      u.regs = t.regs ∧ u.mem = t.mem ∧ u.stdout = t.stdout ∧ u.pc = t.pc

/-- 60_exceptions.md R260: `step` is total, and so is every instruction. -/
def Obligations.StepIsTotal : Prop :=
  (∀ s : State, ∃ t, step s = .next t) ∧ (∀ (i : Instr) (s : State), ∃ t, exec i s = .next t)

/-- 60_exceptions.md R256: a step that faults writes `FAULT` and `STATUS` and nothing else: no register,
no byte of memory, no output, no exit code, and the PC stays. -/
def Obligations.FaultingStepWritesOnlyFaultAndStatus : Prop :=
  ∀ s t : State, (s.status = .ready ∨ s.status = .active) → step s = .next t → t.status = .haltErr →
    ∃ cause info, t = faulted s cause info

/-- 60_exceptions.md R253: which instruction can raise what, a branch only when taken; EBREAK and an
illegal word always. -/
def Obligations.InstructionsRaiseOnlyTheirCauses : Prop :=
  (∀ (i : Instr) (s t : State), exec i s = .next t → t.status = .haltErr →
    ∃ f, t.fault = some f ∧ mayRaise s i f.cause ∧
      (f.cause = .misalignedTarget → ∃ a, takenTarget s i = some a)) ∧
  (∀ s : State, ∃ info, exec .ebreak s = .next (faulted s .unsupportedOperation info)) ∧
  (∀ (s : State) (w : Word), Fetches s w → decode w = .error (.illegalInstruction w) →
    step s = .next (faulted s .illegalInstruction w))

/-- Every step keeps the invariant of a run. -/
def Obligations.StepKeepsInvariant : Prop :=
  ∀ s t : State, s.Inv → step s = .next t → t.Inv

/-- The state after reset meets the invariant, for every legal choice of the parameters and for
`State.reset`. -/
def Obligations.ResetMeetsInvariant : Prop :=
  (∀ p : Params, p.Wf → (State.ofParams p).Inv) ∧ State.reset.Inv

/-- 10_state.md R36: `pc mod 4 = 0` in every reachable state, for every program and parameters. -/
def Obligations.PcAlignedWhenReachable : Prop :=
  ∀ (p : Params) (s : State), p.Wf → Reachable p s → s.pc.toNat % 4 = 0

/-- 10_state.md R38: where the PC of a reachable state stands, by `STATUS`. -/
def Obligations.PcRangeFollowsStatus : Prop :=
  ∀ (p : Params) (s : State), p.Wf → Reachable p s →
    (s.status = .ready ∨ s.status = .active → 0 < s.params.prog.length →
      InValidRange s.params s.pc ∧ s.pc.toNat % 4 = 0) ∧
    (s.status = .haltDone → s.exitCode.isSome ∨ ¬ InValidRange s.params s.pc) ∧
    (s.status = .haltErr → InValidRange s.params s.pc ∧ s.fault.isSome)

/-- 20_memory.md R66: no step changes what any instruction address fetches, and what is fetched does not
depend on the data memory. -/
def Obligations.StoreNeverSeenByFetch : Prop :=
  (∀ s t : State, step s = .next t → t.params = s.params ∧ ∀ a, fetchAt t.params a = fetchAt s.params a) ∧
  (∀ (s : State) (m : List Host.Cell), ({ s with mem := m } : State).fetch = s.fetch)

/-- 10_state.md R26: `READY` is left by the first step and no step comes back to it; a step from an
unhalted block ends `ACTIVE`, `HALT_DONE` or `HALT_ERR`; a halted status stays. -/
def Obligations.StatusFollowsItsTable : Prop :=
  ∀ s t : State, step s = .next t →
    (s.status = .ready ∨ s.status = .active →
      t.status = .active ∨ t.status = .haltDone ∨ t.status = .haltErr) ∧
    (s.status = .haltDone → t.status = .haltDone) ∧ (s.status = .haltErr → t.status = .haltErr)

/-- The units' data path with the dispatch table computes the step (47_step_cycle.md, opening: "that must
compute the same function"; R221 to R229). -/
def Obligations.UnitsComputeTheStep : Prop :=
  ∀ s : State, step s = .next (Units.unitStep s)

/-! ### Arithmetic, shifts, comparisons -/

/-- 40_arith_logic.md R123, R124, R126 to R128: ADD, SUB, AND, OR, XOR. -/
def Obligations.RegisterArithmeticAndLogic : Prop :=
  RegReg 0x00000033 .add (fun a b v => v.toNat = (a.toNat + b.toNat) % 2 ^ 32) ∧
  RegReg 0x40000033 .sub (fun a b v => (v.toNat + b.toNat) % 2 ^ 32 = a.toNat) ∧
  RegReg 0x00007033 .and (fun a b v => ∀ k, v.getLsbD k = (a.getLsbD k && b.getLsbD k)) ∧
  RegReg 0x00006033 .or (fun a b v => ∀ k, v.getLsbD k = (a.getLsbD k || b.getLsbD k)) ∧
  RegReg 0x00004033 .xor (fun a b v => ∀ k, v.getLsbD k = (a.getLsbD k != b.getLsbD k))

/-- 40_arith_logic.md R125, R129 to R131: ADDI, ANDI, ORI, XORI, with the sign-extended immediate. -/
def Obligations.ImmediateArithmeticAndLogic : Prop :=
  RegImm 0x00000013 .addi (fun a b v => v.toNat = (a.toNat + b.toNat) % 2 ^ 32) ∧
  RegImm 0x00007013 .andi (fun a b v => ∀ k, v.getLsbD k = (a.getLsbD k && b.getLsbD k)) ∧
  RegImm 0x00006013 .ori (fun a b v => ∀ k, v.getLsbD k = (a.getLsbD k || b.getLsbD k)) ∧
  RegImm 0x00004013 .xori (fun a b v => ∀ k, v.getLsbD k = (a.getLsbD k != b.getLsbD k))

/-- 40_arith_logic.md R132, R133: LUI writes its immediate, AUIPC its own address plus the immediate. -/
def Obligations.UpperImmediates : Prop :=
  (∀ w : Word, w &&& 0x0000007f = 0x00000037 →
    decode w = .ok (.lui (w.extractLsb' 7 5) (w.extractLsb' 12 20 ++ 0#12))) ∧
  (∀ w : Word, w &&& 0x0000007f = 0x00000017 →
    decode w = .ok (.auipc (w.extractLsb' 7 5) (w.extractLsb' 12 20 ++ 0#12))) ∧
  (∀ (rd : RegIdx) (imm : Word) (s : State), ∃ t, exec (.lui rd imm) s = .next t ∧
    RegWritten s t rd imm ∧ MemKept s t ∧ MovesTo s t (s.pc + 4)) ∧
  (∀ (rd : RegIdx) (imm : Word) (s : State), ∃ t, exec (.auipc rd imm) s = .next t ∧
    RegWritten s t rd (s.pc + imm) ∧ MemKept s t ∧ MovesTo s t (s.pc + 4))

/-- 41_shifts.md R140 to R146: the amount is the low five bits; left and logical right shifts fill with
zeros, arithmetic right shifts round toward minus infinity. -/
def Obligations.ShiftsByLowFiveBits : Prop :=
  RegReg 0x00001033 .sll (fun a b v => v.toNat = a.toNat * 2 ^ (b.toNat % 32) % 2 ^ 32) ∧
  RegReg 0x00005033 .srl (fun a b v => v.toNat = a.toNat / 2 ^ (b.toNat % 32)) ∧
  RegReg 0x40005033 .sra (fun a b v => v.toInt = Int.fdiv a.toInt (2 ^ (b.toNat % 32))) ∧
  RegShift 0x00001013 .slli (fun a k v => v.toNat = a.toNat * 2 ^ k % 2 ^ 32) ∧
  RegShift 0x00005013 .srli (fun a k v => v.toNat = a.toNat / 2 ^ k) ∧
  RegShift 0x40005013 .srai (fun a k v => v.toInt = Int.fdiv a.toInt (2 ^ k))

/-- 42_compare.md R151 to R154: 1 if less than, else 0, signed or unsigned by the mnemonic. -/
def Obligations.SetLessThan : Prop :=
  RegReg 0x00002033 .slt (fun a b v => IsOneIff (a.toInt < b.toInt) v) ∧
  RegReg 0x00003033 .sltu (fun a b v => IsOneIff (a.toNat < b.toNat) v) ∧
  RegImm 0x00002013 .slti (fun a b v => IsOneIff (a.toInt < b.toInt) v) ∧
  RegImm 0x00003013 .sltiu (fun a b v => IsOneIff (a.toNat < b.toNat) v)

/-! ### Control transfer -/

/-- 43_branches.md R161 to R166: the six branches. -/
def Obligations.BranchesFollowTheirCondition : Prop :=
  Branch 0x00000063 .beq (fun a b => a = b) ∧
  Branch 0x00001063 .bne (fun a b => a ≠ b) ∧
  Branch 0x00004063 .blt (fun a b => a.toInt < b.toInt) ∧
  Branch 0x00005063 .bge (fun a b => ¬ a.toInt < b.toInt) ∧
  Branch 0x00006063 .bltu (fun a b => a.toNat < b.toNat) ∧
  Branch 0x00007063 .bgeu (fun a b => ¬ a.toNat < b.toNat)

/-- 44_jumps.md R171: JAL. -/
def Obligations.JumpAndLink : Prop :=
  (∀ w : Word, w &&& 0x0000007f = 0x0000006f →
    decode w = .ok (.jal (w.extractLsb' 7 5)
      ((w.extractLsb' 31 1 ++ w.extractLsb' 12 8 ++ w.extractLsb' 20 1 ++ w.extractLsb' 21 10 ++ 0#1).signExtend 32))) ∧
  ∀ (rd : RegIdx) (imm : Word) (s : State),
    ((s.pc + imm).toNat % 4 = 0 → ∃ t, exec (.jal rd imm) s = .next t ∧
      RegWritten s t rd (s.pc + 4) ∧ MemKept s t ∧ MovesTo s t (s.pc + imm)) ∧
    ((s.pc + imm).toNat % 4 ≠ 0 →
      exec (.jal rd imm) s = .next (faulted s .misalignedTarget (s.pc + imm))) ∧
    (s.pc.toNat % 4 = 0 → imm.getLsbD 0 = false → ((s.pc + imm).toNat % 4 ≠ 0 ↔ imm.getLsbD 1 = true))

/-- 44_jumps.md R172: JALR, its target computed from the old `x[rs1]` with bit 0 cleared. -/
def Obligations.JumpAndLinkRegister : Prop :=
  (∀ w : Word, w &&& 0x0000707f = 0x00000067 →
    decode w = .ok (.jalr (w.extractLsb' 7 5) (w.extractLsb' 15 5) ((w.extractLsb' 20 12).signExtend 32))) ∧
  ∀ (rd rs1 : RegIdx) (imm t : Word) (s : State), t = (s.readReg rs1 + imm) &&& 0xfffffffe →
    ((s.readReg rs1 + imm).getLsbD 1 = false → ∃ u, exec (.jalr rd rs1 imm) s = .next u ∧
      RegWritten s u rd (s.pc + 4) ∧ MemKept s u ∧ MovesTo s u t) ∧
    ((s.readReg rs1 + imm).getLsbD 1 = true →
      exec (.jalr rd rs1 imm) s = .next (faulted s .misalignedTarget t))

/-- 44_jumps.md R173: a branch or jump faults exactly when the transfer it takes goes to an address that
is not a multiple of 4, wherever that address lies. -/
def Obligations.MisalignedTargetFaultsExactly : Prop :=
  ∀ (i : Instr) (s : State),
    (∀ t, takenTarget s i = some t → t.toNat % 4 ≠ 0 → exec i s = .next (faulted s .misalignedTarget t)) ∧
    (∀ u, exec i s = .next u → u.status = .haltErr → (∃ f, u.fault = some f ∧ f.cause = .misalignedTarget) →
      ∃ t, takenTarget s i = some t ∧ t.toNat % 4 ≠ 0)

/-! ### Loads and stores -/

/-- 45_loads_stores.md R181 to R185: the five loads. -/
def Obligations.LoadsReadAndExtend : Prop :=
  Load 0x00000003 .lb 1 (fun m a => (m a).signExtend 32) ∧
  Load 0x00001003 .lh 2 (fun m a => (m (a + 1) ++ m a).signExtend 32) ∧
  Load 0x00002003 .lw 4 (fun m a => m (a + 3) ++ m (a + 2) ++ m (a + 1) ++ m a) ∧
  Load 0x00004003 .lbu 1 (fun m a => (m a).zeroExtend 32) ∧
  Load 0x00005003 .lhu 2 (fun m a => (m (a + 1) ++ m a).zeroExtend 32)

/-- 45_loads_stores.md R186 to R188: the three stores. -/
def Obligations.StoresWriteLowBytes : Prop :=
  Store 0x00000023 .sb 1 (fun v => [v.extractLsb' 0 8]) ∧
  Store 0x00001023 .sh 2 (fun v => [v.extractLsb' 0 8, v.extractLsb' 8 8]) ∧
  Store 0x00002023 .sw 4 (fun v => [v.extractLsb' 0 8, v.extractLsb' 8 8, v.extractLsb' 16 8, v.extractLsb' 24 8])

/-- The source's property T7: a byte stored by SB and loaded from the same address by LB or LBU
round-trips, sign- or zero-extended (the memory list in its canonical form, which every step keeps). -/
def Obligations.StoredByteLoadsBack : Prop :=
  ∀ (rs1 rs2 rd rb : RegIdx) (imm imm' : Word) (s t : State),
    Memory.wf s.mem = true → (s.readReg rs1 + imm).toNat < s.params.memBound → exec (.sb rs1 rs2 imm) s = .next t →
    t.readReg rb + imm' = s.readReg rs1 + imm → rd ≠ 0 →
    (∃ u, exec (.lb rd rb imm') t = .next u ∧ u.readReg rd = ((s.readReg rs2).extractLsb' 0 8).signExtend 32) ∧
    (∃ u, exec (.lbu rd rb imm') t = .next u ∧ u.readReg rd = ((s.readReg rs2).extractLsb' 0 8).zeroExtend 32)

/-- 20_memory.md R57: what reads of each width see after a word was written at `a` (the memory list in
its canonical form and the bound legal, which every step keeps). -/
def Obligations.MixedWidthsSeeTheSameBytes : Prop :=
  ∀ (s : State) (a v : Word) (w : MemWrite) (t : State),
    Memory.wf s.mem = true → s.params.memBound ≤ 2 ^ 32 → s.memWrite a (bytes32 v) = .ok w →
    t = { s with mem := Memory.setBytes s.mem w.addr w.bytes } →
    t.memRead8 a = .ok (v.extractLsb' 0 8) ∧ t.memRead8 (a + 1) = .ok (v.extractLsb' 8 8) ∧
    t.memRead8 (a + 2) = .ok (v.extractLsb' 16 8) ∧ t.memRead8 (a + 3) = .ok (v.extractLsb' 24 8) ∧
    t.memRead16 a = .ok (v.extractLsb' 0 16) ∧ t.memRead16 (a + 2) = .ok (v.extractLsb' 16 16) ∧
    t.memRead16 (a + 1) = .ok (v.extractLsb' 8 16) ∧ t.memRead32 a = .ok v

/-- 20_memory.md R60: only loads, stores and ECALL touch the data memory: no other instruction writes it,
and what any other does is the same whatever the memory holds. -/
def Obligations.OnlyLoadsStoresAndEcallTouchMemory : Prop :=
  ∀ (i : Instr) (s t : State), exec i s = .next t →
    (isStore i = false → t.mem = s.mem) ∧
    (isLoad i = false → isStore i = false → i ≠ .ecall → ∀ m : List Host.Cell,
      exec i { s with mem := m } = .next { t with mem := m })

/-- 20_memory.md R50, 10_state.md R30: no instruction reads the program store: registers, memory, output
and next PC are the same whatever the program is. -/
def Obligations.NoInstructionReadsTheProgram : Prop :=
  ∀ (i : Instr) (s t : State) (prog : List Word), exec i s = .next t → ∃ u,
    exec i { s with params := { s.params with prog := prog } } = .next u ∧
    u.regs = t.regs ∧ u.mem = t.mem ∧ u.stdout = t.stdout ∧ u.pc = t.pc ∧ u.exitCode = t.exitCode ∧ u.fault = t.fault

/-! ### Registers -/

/-- 10_state.md R21: register 0 reads as zero in every state, and an instruction with `rd = 0` writes no
register and has every other effect it would have with another `rd`. -/
def Obligations.RegisterZeroDiscardsWrites : Prop :=
  (∀ s : State, s.readReg 0 = 0) ∧
  (∀ (i : Instr) (s u : State), exec i s = .next u →
    exec (withRdZero i) s = .next { u with regs := s.regs })

/-- 10_state.md R22: an instruction writes at most one register, the destination of its form, and none
when it faults. -/
def Obligations.AtMostTheDestinationIsWritten : Prop :=
  ∀ (i : Instr) (s t : State), exec i s = .next t → ∀ r, t.readReg r ≠ s.readReg r →
    destination i = some r ∧ t.status ≠ .haltErr

/-- 47_step_cycle.md R230: "no instruction both writes memory and a register". -/
def Obligations.NoInstructionWritesRegisterAndMemory : Prop :=
  ∀ (i : Instr) (s t : State), exec i s = .next t → RegsKept s t ∨ MemKept s t

/-! ### System instructions and the environment -/

/-- 46_system.md R211: FENCE advances the PC and does nothing else, whatever its other bits; FENCE.I
(funct3 001) is illegal. -/
def Obligations.FenceOnlyAdvances : Prop :=
  (∀ w : Word, w &&& 0x0000707f = 0x0000000f → decode w = .ok .fence) ∧
  (∀ w : Word, w &&& 0x0000707f = 0x0000100f → decode w = .error (.illegalInstruction w)) ∧
  (∀ s : State, ∃ t, exec .fence s = .next t ∧ RegsKept s t ∧ MemKept s t ∧ MovesTo s t (s.pc + 4))

/-- 46_system.md R210: EBREAK always raises `UnsupportedOperation(0x00100073)`. -/
def Obligations.EbreakAlwaysFaults : Prop :=
  (∀ w : Word, decode w = .ok .ebreak ↔ w = 0x00100073) ∧
  (∀ s : State, exec .ebreak s = .next (faulted s .unsupportedOperation 0x00100073))

/-- 46_system.md R200, R203: ECALL and the three answers, for every environment. -/
def Obligations.EcallTakesTheAnswer : Prop :=
  (∀ w : Word, decode w = .ok .ecall ↔ w = 0x00000073) ∧
  ∀ s : State,
    (∀ bytes, s.callEnv = .goOn bytes → ∃ t, exec .ecall s = .next t ∧ RegsKept s t ∧ MemKept s t ∧
      t.pc = s.pc + 4 ∧ t.stdout = s.stdout ++ bytes ∧ StatusByRange s.params (s.pc + 4) t.status ∧
      t.exitCode = s.exitCode ∧ t.fault = s.fault ∧ t.params = s.params) ∧
    (∀ code, s.callEnv = .exit code → ∃ t, exec .ecall s = .next t ∧ RegsKept s t ∧ MemKept s t ∧
      t.pc = s.pc + 4 ∧ t.stdout = s.stdout ∧ t.status = .haltDone ∧
      t.exitCode = some code ∧ t.fault = s.fault ∧ t.params = s.params) ∧
    (∀ cause info, s.callEnv = .fail cause info →
      exec .ecall s = .next (faulted s (match cause with
        | .unsupportedSyscall => .unsupportedSyscall
        | .memoryFault => .memoryFault) info))

/-- 10_state.md R27: `EXIT_CODE` changes only by an `Exit` answer, then with `HALT_DONE` in the same step,
and the host reads it as a signed integer. -/
def Obligations.ExitCodeOnlyFromExitCall : Prop :=
  (∀ (i : Instr) (s t : State), exec i s = .next t → t.exitCode ≠ s.exitCode →
    i = .ecall ∧ ∃ code, s.callEnv = .exit code ∧ t.exitCode = some code ∧ t.status = .haltDone) ∧
  (∀ (s : State) (code : Word), s.exitCode = some code → exitResult s = some code.toInt) ∧
  (∀ s : State, s.exitCode = none → exitResult s = none)

/-- 10_state.md R29: `STDOUT` only grows, by the bytes of a `Continue` answer, and is emptied by `reset`. -/
def Obligations.StdoutOnlyGrows : Prop :=
  (∀ (i : Instr) (s t : State), exec i s = .next t → t.stdout = s.stdout ∨
    (i = .ecall ∧ ∃ bytes, s.callEnv = .goOn bytes ∧ t.stdout = s.stdout ++ bytes)) ∧
  (∀ s t : State, step s = .next t → s.stdout <+: t.stdout) ∧
  (∀ s : State, (resetCommand s).stdout = [])

/-- 46_system.md R204, R207, R208: the dispatch of `ENV_REF` on `u(x[17])` and its exits and refusal. -/
def Obligations.ReferenceExitsAndRefusesUnknown : Prop :=
  ∀ s : State, s.params.env = .reference →
    ((s.readReg 17).toNat = 93 → s.callEnv = .exit (s.readReg 10)) ∧
    ((s.readReg 17).toNat = 10 → s.callEnv = .exit 0) ∧
    ((s.readReg 17).toNat ∉ [1, 10, 64, 93] → s.callEnv = .fail .unsupportedSyscall (s.readReg 17))

/-- 46_system.md R206: print bytes under `ENV_REF`. -/
def Obligations.ReferencePrintsBytes : Prop :=
  ∀ s : State, s.params.env = .reference → (s.readReg 17).toNat = 64 →
    ((s.readReg 11).toNat + (s.readReg 12).toNat ≤ s.params.memBound → ∃ bytes, s.callEnv = .goOn bytes ∧
      bytes.length = (s.readReg 12).toNat ∧
      ∀ k, k < (s.readReg 12).toNat → bytes[k]? = some (s.byte ((s.readReg 11).toNat + k))) ∧
    (s.params.memBound < (s.readReg 11).toNat + (s.readReg 12).toNat →
      s.callEnv = .fail .memoryFault (s.readReg 11))

/-- 46_system.md R205: print integer under `ENV_REF`: a minus sign if `s(x[10])` is negative, then the
digits of its magnitude with no leading zeros. -/
def Obligations.ReferencePrintsSignedDecimal : Prop :=
  ∀ s : State, s.params.env = .reference → (s.readReg 17).toNat = 1 →
    ∃ digits : List Byte,
      s.callEnv = .goOn ((if (s.readReg 10).toInt < 0 then [0x2d#8] else []) ++ digits) ∧
      (∀ d ∈ digits, 0x30 ≤ d.toNat ∧ d.toNat ≤ 0x39) ∧
      digitsValue digits = (s.readReg 10).toInt.natAbs ∧
      digits ≠ [] ∧ (1 < digits.length → digits.head? ≠ some 0x30#8)

/-! ### Reset, run, observation -/

/-- 70_reset_and_hazards.md R291, 10_state.md R39: what `reset` writes, and that it keeps the parameters. -/
def Obligations.ResetWritesEveryResetValue : Prop :=
  ∀ s t : State, command .reset s = .next t →
    t.readReg 0 = 0 ∧ (∀ k (h : k < 31), t.readReg (BitVec.ofNat 5 (k + 1)) = s.params.resetRegs[k]) ∧
    t.pc = s.params.entry ∧ t.status = .ready ∧ t.exitCode = none ∧ t.fault = none ∧ t.stdout = [] ∧
    (∀ a, t.byte a = Memory.get s.params.initMem a) ∧ t.params = s.params

/-- 10_state.md R40: two resets of the same block give the same state, whatever commands happened between
them. -/
def Obligations.ResetForgetsWhatHappened : Prop :=
  ∀ (s t : State) (cs : List Command), commands cs s = .next t → resetCommand t = resetCommand s

/-- 47_step_cycle.md R232: `run` repeats `step`: under any fuel it is that many steps, and once it has
halted more fuel changes nothing. -/
def Obligations.RunRepeatsStep : Prop :=
  (∀ (fuel : Nat) (s : State), runFor fuel s = Host.Core.run core fuel s) ∧
  (∀ (fuel more : Nat) (s t : State), runFor fuel s = .next t → t.halted = true → runFor (fuel + more) s = .next t)

/-- 47_step_cycle.md R235: what the host reads: the PC, the word the next step would fetch, the 32
registers, the output, the exit code, the status and the fault record. -/
def Obligations.ObservationShowsTheState : Prop :=
  ∀ s : State, (observe s).currentPc = s.pc ∧
    (∀ w, (observe s).nextWord = some w ↔
      InValidRange s.params s.pc ∧ s.params.prog[(s.pc.toNat - s.params.entry.toNat) / 4]? = some w) ∧
    (∀ r : RegIdx, (observe s).registers[r.toNat] = s.readReg r) ∧ (observe s).stdout = s.stdout ∧
    (observe s).result = s.exitCode ∧ (observe s).status = s.status ∧ (observe s).fault = s.fault

/-- 30_encoding.md R105: the expansion of `li rd, v` has one or two well-formed instructions, and executed
in order they leave `v` in `rd` and every other register as before. -/
def Obligations.LiExpansionLoadsTheConstant : Prop :=
  ∀ (rd : RegIdx) (v : Word) (s : State),
    (∀ i ∈ Assembly.li rd v, i.wf = true) ∧ (Assembly.li rd v).length ∈ [1, 2] ∧
    ∃ t, execAll (Assembly.li rd v) s = .next t ∧ RegWritten s t rd v
end

