-- ==== Sys2Proof/Laws/Alu.lean ====
section
/-! SUPPORT. The ALU's functions as the numbers 00_scope.md R10 defines them to be. -/

namespace Sys2Proof.Machine

variable (a b : Word)

theorem aluAdd_toNat : (aluAdd a b).toNat = (a.toNat + b.toNat) % 2 ^ 32 := BitVec.toNat_add a b

theorem aluSub_toNat : ((aluSub a b).toNat + b.toNat) % 2 ^ 32 = a.toNat := by
  rw [aluSub, BitVec.toNat_sub]
  omega

theorem shiftAmount_eq : shiftAmount b = b.toNat % 32 := by simp [shiftAmount]

theorem shiftAmount_zeroExtend (k : RegIdx) : shiftAmount (k.zeroExtend 32) = k.toNat := by
  rw [shiftAmount_eq]
  simp
  omega

theorem aluSll_toNat : (aluSll a b).toNat = a.toNat * 2 ^ (shiftAmount b) % 2 ^ 32 := by
  rw [aluSll, BitVec.toNat_shiftLeft, Nat.shiftLeft_eq]

theorem aluSrl_toNat : (aluSrl a b).toNat = a.toNat / 2 ^ (shiftAmount b) := by
  rw [aluSrl, BitVec.toNat_ushiftRight, Nat.shiftRight_eq_div_pow]

/-- The arithmetic right shift is the floor of the quotient. -/
theorem aluSra_toInt : (aluSra a b).toInt = Int.fdiv a.toInt (2 ^ (shiftAmount b)) := by
  rw [aluSra, BitVec.toInt_sshiftRight, Int.shiftRight_eq_div_pow, Int.fdiv_eq_ediv_of_nonneg _ (by positivity)]
  norm_cast

theorem aluSlt_eq : aluSlt a b = if a.toInt < b.toInt then 1 else 0 := by simp [aluSlt, boolWord, cmpLt]

theorem aluSltu_eq : aluSltu a b = if a.toNat < b.toNat then 1 else 0 := by simp [aluSltu, boolWord, cmpLtu]

/-- The word JALR masks its sum to (44_jumps.md R172). -/
theorem clearBit0_toNat : (a &&& (0xfffffffe : Word)).toNat = a.toNat / 2 * 2 := by
  have h : a &&& (0xfffffffe : Word) = (a >>> 1) <<< 1 := by
    apply BitVec.eq_of_getLsbD_eq
    intro i hi
    interval_cases i <;> simp
  rw [h]
  simp [Nat.shiftLeft_eq, Nat.shiftRight_eq_div_pow]
  omega

end Sys2Proof.Machine
end

