-- ==== Sys2Proof/Laws/Decode.lean ====
section
/-! SUPPORT. The fields of encoded words, what each mask of the opcode table looks at, and the immediates
put back together. -/

namespace Sys2Proof

/-! ### Fields as numbers -/

theorem fieldOpcode_toNat (w : Word) : (fieldOpcode w).toNat = w.toNat % 128 := by simp [fieldOpcode]
theorem fieldRd_toNat (w : Word) : (fieldRd w).toNat = w.toNat / 128 % 32 := by
  simp [fieldRd, Nat.shiftRight_eq_div_pow]
theorem fieldFunct3_toNat (w : Word) : (fieldFunct3 w).toNat = w.toNat / 4096 % 8 := by
  simp [fieldFunct3, Nat.shiftRight_eq_div_pow]
theorem fieldRs1_toNat (w : Word) : (fieldRs1 w).toNat = w.toNat / 32768 % 32 := by
  simp [fieldRs1, Nat.shiftRight_eq_div_pow]
theorem fieldRs2_toNat (w : Word) : (fieldRs2 w).toNat = w.toNat / 1048576 % 32 := by
  simp [fieldRs2, Nat.shiftRight_eq_div_pow]
theorem fieldFunct7_toNat (w : Word) : (fieldFunct7 w).toNat = w.toNat / 33554432 % 128 := by
  simp [fieldFunct7, Nat.shiftRight_eq_div_pow]

/-! ### The three masks -/

theorem and_mask7 (w : Word) : w &&& 0x0000007f = (0#25 ++ fieldOpcode w : BitVec (25 + 7)) := by
  apply BitVec.eq_of_getLsbD_eq
  intro i hi
  rw [BitVec.getLsbD_and]
  change _ = BitVec.getLsbD (w := 25 + 7) _ i
  simp only [BitVec.getLsbD_append, fieldOpcode, BitVec.getLsbD_extractLsb']
  interval_cases i <;> simp

theorem and_mask3 (w : Word) :
    w &&& 0x0000707f = (0#17 ++ fieldFunct3 w ++ 0#5 ++ fieldOpcode w : BitVec (17 + 3 + 5 + 7)) := by
  apply BitVec.eq_of_getLsbD_eq
  intro i hi
  rw [BitVec.getLsbD_and]
  change _ = BitVec.getLsbD (w := 17 + 3 + 5 + 7) _ i
  simp only [BitVec.getLsbD_append, fieldOpcode, fieldFunct3, BitVec.getLsbD_extractLsb']
  interval_cases i <;> simp

theorem and_maskR (w : Word) :
    w &&& 0xfe00707f = (fieldFunct7 w ++ 0#10 ++ fieldFunct3 w ++ 0#5 ++ fieldOpcode w : BitVec (7 + 10 + 3 + 5 + 7)) := by
  apply BitVec.eq_of_getLsbD_eq
  intro i hi
  rw [BitVec.getLsbD_and]
  change _ = BitVec.getLsbD (w := 7 + 10 + 3 + 5 + 7) _ i
  simp only [BitVec.getLsbD_append, fieldOpcode, fieldFunct3, fieldFunct7, BitVec.getLsbD_extractLsb']
  interval_cases i <;> simp

theorem fieldOpcode_and (w m : Word) : fieldOpcode (w &&& m) = fieldOpcode w &&& fieldOpcode m := by
  simp [fieldOpcode, BitVec.extractLsb'_and]
theorem fieldFunct3_and (w m : Word) : fieldFunct3 (w &&& m) = fieldFunct3 w &&& fieldFunct3 m := by
  simp [fieldFunct3, BitVec.extractLsb'_and]
theorem fieldFunct7_and (w m : Word) : fieldFunct7 (w &&& m) = fieldFunct7 w &&& fieldFunct7 m := by
  simp [fieldFunct7, BitVec.extractLsb'_and]

/-- The mask of LUI, AUIPC and JAL looks at the opcode alone (30_encoding.md R95). -/
theorem masked7_iff (w : Word) {m : Word} (hm : m &&& 0x0000007f = m) :
    w &&& 0x0000007f = m ↔ fieldOpcode w = fieldOpcode m := by
  constructor
  · rintro rfl
    rw [fieldOpcode_and]
    exact (BitVec.and_allOnes (x := fieldOpcode w)).symm
  · intro h
    rw [← hm, and_mask7, and_mask7, h]

/-- The mask of most rows looks at opcode and funct3 (30_encoding.md R95). -/
theorem masked3_iff (w : Word) {m : Word} (hm : m &&& 0x0000707f = m) :
    w &&& 0x0000707f = m ↔ fieldOpcode w = fieldOpcode m ∧ fieldFunct3 w = fieldFunct3 m := by
  constructor
  · rintro rfl
    rw [fieldOpcode_and, fieldFunct3_and]
    exact ⟨(BitVec.and_allOnes (x := fieldOpcode w)).symm, (BitVec.and_allOnes (x := fieldFunct3 w)).symm⟩
  · rintro ⟨h1, h2⟩
    rw [← hm, and_mask3, and_mask3, h1, h2]

/-- The mask of the R format and the immediate shifts looks at opcode, funct3 and funct7
(30_encoding.md R95). -/
theorem maskedR_iff (w : Word) {m : Word} (hm : m &&& 0xfe00707f = m) :
    w &&& 0xfe00707f = m ↔
      fieldOpcode w = fieldOpcode m ∧ fieldFunct3 w = fieldFunct3 m ∧ fieldFunct7 w = fieldFunct7 m := by
  constructor
  · rintro rfl
    rw [fieldOpcode_and, fieldFunct3_and, fieldFunct7_and]
    exact ⟨(BitVec.and_allOnes (x := fieldOpcode w)).symm, (BitVec.and_allOnes (x := fieldFunct3 w)).symm,
      (BitVec.and_allOnes (x := fieldFunct7 w)).symm⟩
  · rintro ⟨h1, h2, h3⟩
    rw [← hm, and_maskR, and_maskR, h1, h2, h3]

/-- No two rows agree on the bits both of them match (30_encoding.md R95: "pairwise disjoint"). -/
theorem rows_differ_where_both_match : ∀ r ∈ opcodeRows, ∀ r' ∈ opcodeRows,
    r = r' ∨ r.matchBits &&& (r.mask &&& r'.mask) ≠ r'.matchBits &&& (r.mask &&& r'.mask) := by
  decide +kernel

/-! ### Encoded words as numbers (30_encoding.md R82 to R87) -/

variable (f7 : BitVec 7) (rs2 rs1 rd : RegIdx) (f3 : BitVec 3) (op : BitVec 7) (imm : Word)

theorem encR_toNat : (encR f7 rs2 rs1 f3 rd op).toNat =
    f7.toNat * 2 ^ 25 + rs2.toNat * 2 ^ 20 + rs1.toNat * 2 ^ 15 + f3.toNat * 2 ^ 12 + rd.toNat * 2 ^ 7 + op.toNat := by
  unfold encR
  change BitVec.toNat (w := 7 + 5 + 5 + 3 + 5 + 7) (f7 ++ rs2 ++ rs1 ++ f3 ++ rd ++ op) = _
  simp only [BitVec.toNat_append]
  rw [← Nat.shiftLeft_add_eq_or_of_lt (by omega), ← Nat.shiftLeft_add_eq_or_of_lt (by omega),
    ← Nat.shiftLeft_add_eq_or_of_lt (by omega), ← Nat.shiftLeft_add_eq_or_of_lt (by omega),
    ← Nat.shiftLeft_add_eq_or_of_lt (by omega)]
  simp only [Nat.shiftLeft_eq]
  omega

/-- The I format is the R format with the immediate's two parts in `funct7` and `rs2`. -/
theorem encI_eq_encR : encI imm rs1 f3 rd op =
    encR (imm.extractLsb' 5 7) (imm.extractLsb' 0 5) rs1 f3 rd op := by
  apply BitVec.eq_of_toNat_eq
  rw [encR_toNat]
  unfold encI
  change BitVec.toNat (w := 12 + 5 + 3 + 5 + 7) (imm.extractLsb' 0 12 ++ rs1 ++ f3 ++ rd ++ op) = _
  simp only [BitVec.toNat_append]
  rw [← Nat.shiftLeft_add_eq_or_of_lt (by omega), ← Nat.shiftLeft_add_eq_or_of_lt (by omega),
    ← Nat.shiftLeft_add_eq_or_of_lt (by omega), ← Nat.shiftLeft_add_eq_or_of_lt (by omega)]
  simp only [Nat.shiftLeft_eq, BitVec.extractLsb'_toNat, Nat.shiftRight_eq_div_pow]
  omega

/-- The S format is the R format with the immediate's two parts in `funct7` and `rd`. -/
theorem encS_eq_encR : encS imm rs2 rs1 f3 op =
    encR (imm.extractLsb' 5 7) rs2 rs1 f3 (imm.extractLsb' 0 5) op := rfl

/-- The B format is the R format with the immediate's parts in `funct7` and `rd`. -/
theorem encB_eq_encR : encB imm rs2 rs1 f3 op =
    encR (imm.extractLsb' 12 1 ++ imm.extractLsb' 5 6) rs2 rs1 f3 (imm.extractLsb' 1 4 ++ imm.extractLsb' 11 1) op := by
  apply BitVec.eq_of_toNat_eq
  rw [encR_toNat]
  unfold encB
  change BitVec.toNat (w := 1 + 6 + 5 + 5 + 3 + 4 + 1 + 7)
    (imm.extractLsb' 12 1 ++ imm.extractLsb' 5 6 ++ rs2 ++ rs1 ++ f3 ++ imm.extractLsb' 1 4 ++ imm.extractLsb' 11 1 ++ op) = _
  change _ = BitVec.toNat (w := 1 + 6) (imm.extractLsb' 12 1 ++ imm.extractLsb' 5 6) * 2 ^ 25 + _ + _ + _ +
    BitVec.toNat (w := 4 + 1) (imm.extractLsb' 1 4 ++ imm.extractLsb' 11 1) * 2 ^ 7 + _
  simp only [BitVec.toNat_append]
  rw [← Nat.shiftLeft_add_eq_or_of_lt (by omega), ← Nat.shiftLeft_add_eq_or_of_lt (by omega),
    ← Nat.shiftLeft_add_eq_or_of_lt (by omega), ← Nat.shiftLeft_add_eq_or_of_lt (by omega),
    ← Nat.shiftLeft_add_eq_or_of_lt (by omega), ← Nat.shiftLeft_add_eq_or_of_lt (by omega),
    ← Nat.shiftLeft_add_eq_or_of_lt (by omega), ← Nat.shiftLeft_add_eq_or_of_lt (by omega)]
  simp only [Nat.shiftLeft_eq]
  omega

theorem encU_toNat : (encU imm rd op).toNat = imm.toNat / 2 ^ 12 * 2 ^ 12 + rd.toNat * 2 ^ 7 + op.toNat := by
  unfold encU
  change BitVec.toNat (w := 20 + 5 + 7) (imm.extractLsb' 12 20 ++ rd ++ op) = _
  simp only [BitVec.toNat_append]
  rw [← Nat.shiftLeft_add_eq_or_of_lt (by omega), ← Nat.shiftLeft_add_eq_or_of_lt (by omega)]
  simp only [Nat.shiftLeft_eq, BitVec.extractLsb'_toNat, Nat.shiftRight_eq_div_pow]
  omega

theorem encJ_toNat : (encJ imm rd op).toNat =
    (imm.toNat / 2 ^ 20 % 2) * 2 ^ 31 + (imm.toNat / 2 % 1024) * 2 ^ 21 + (imm.toNat / 2 ^ 11 % 2) * 2 ^ 20 +
    (imm.toNat / 2 ^ 12 % 256) * 2 ^ 12 + rd.toNat * 2 ^ 7 + op.toNat := by
  unfold encJ
  change BitVec.toNat (w := 1 + 10 + 1 + 8 + 5 + 7) (imm.extractLsb' 20 1 ++ imm.extractLsb' 1 10 ++
    imm.extractLsb' 11 1 ++ imm.extractLsb' 12 8 ++ rd ++ op) = _
  simp only [BitVec.toNat_append]
  rw [← Nat.shiftLeft_add_eq_or_of_lt (by omega), ← Nat.shiftLeft_add_eq_or_of_lt (by omega),
    ← Nat.shiftLeft_add_eq_or_of_lt (by omega), ← Nat.shiftLeft_add_eq_or_of_lt (by omega),
    ← Nat.shiftLeft_add_eq_or_of_lt (by omega)]
  simp only [Nat.shiftLeft_eq, BitVec.extractLsb'_toNat, Nat.shiftRight_eq_div_pow]
  omega

/-! ### Fields of encoded words -/

@[simp] theorem fieldOpcode_encR : fieldOpcode (encR f7 rs2 rs1 f3 rd op) = op := by
  apply BitVec.eq_of_toNat_eq; rw [fieldOpcode_toNat, encR_toNat]; omega
@[simp] theorem fieldRd_encR : fieldRd (encR f7 rs2 rs1 f3 rd op) = rd := by
  apply BitVec.eq_of_toNat_eq; rw [fieldRd_toNat, encR_toNat]; omega
@[simp] theorem fieldFunct3_encR : fieldFunct3 (encR f7 rs2 rs1 f3 rd op) = f3 := by
  apply BitVec.eq_of_toNat_eq; rw [fieldFunct3_toNat, encR_toNat]; omega
@[simp] theorem fieldRs1_encR : fieldRs1 (encR f7 rs2 rs1 f3 rd op) = rs1 := by
  apply BitVec.eq_of_toNat_eq; rw [fieldRs1_toNat, encR_toNat]; omega
@[simp] theorem fieldRs2_encR : fieldRs2 (encR f7 rs2 rs1 f3 rd op) = rs2 := by
  apply BitVec.eq_of_toNat_eq; rw [fieldRs2_toNat, encR_toNat]; omega
@[simp] theorem fieldFunct7_encR : fieldFunct7 (encR f7 rs2 rs1 f3 rd op) = f7 := by
  apply BitVec.eq_of_toNat_eq; rw [fieldFunct7_toNat, encR_toNat]; omega

@[simp] theorem fieldOpcode_encU : fieldOpcode (encU imm rd op) = op := by
  apply BitVec.eq_of_toNat_eq; rw [fieldOpcode_toNat, encU_toNat]; omega
@[simp] theorem fieldRd_encU : fieldRd (encU imm rd op) = rd := by
  apply BitVec.eq_of_toNat_eq; rw [fieldRd_toNat, encU_toNat]; omega
@[simp] theorem fieldOpcode_encJ : fieldOpcode (encJ imm rd op) = op := by
  apply BitVec.eq_of_toNat_eq; rw [fieldOpcode_toNat, encJ_toNat]; omega
@[simp] theorem fieldRd_encJ : fieldRd (encJ imm rd op) = rd := by
  apply BitVec.eq_of_toNat_eq; rw [fieldRd_toNat, encJ_toNat]; omega

/-! ### Immediates of encoded words (30_encoding.md R88 to R93) -/

/-- A word in the signed range of `n` low bits is the sign extension of those bits. -/
theorem signExtend_low (n : Nat) (hn : 0 < n) (hn' : n ≤ 32) (x : BitVec n) (v : Word)
    (hx : x.toNat = v.toNat % 2 ^ n) (h : -(2 : Int) ^ (n - 1) ≤ v.toInt ∧ v.toInt < (2 : Int) ^ (n - 1)) :
    x.signExtend 32 = v := by
  apply BitVec.eq_of_toInt_eq
  rw [BitVec.toInt_signExtend_of_le hn', BitVec.toInt_eq_toNat_bmod, hx]
  have h1 : ((v.toNat % 2 ^ n : Nat) : Int).bmod (2 ^ n) = v.toInt.bmod (2 ^ n) := by
    rw [BitVec.toInt_eq_toNat_bmod, Int.bmod_bmod_of_dvd (Nat.pow_dvd_pow 2 hn'), Int.natCast_mod, Int.emod_bmod]
  rw [h1]
  obtain ⟨k, rfl⟩ : ∃ k, n = k + 1 := ⟨n - 1, by omega⟩
  have hk : ((2 ^ (k + 1) : Nat) : Int) = 2 * 2 ^ k := by push_cast; ring
  simp only [Nat.add_sub_cancel] at h
  apply Int.bmod_eq_of_le <;> rw [hk] <;> omega

/-- The I immediate of an encoded word (30_encoding.md R88). -/
theorem immI_encI (h : wfImm12 imm = true) : immI (encI imm rs1 f3 rd op) = imm := by
  have h' : -2048 ≤ imm.toInt ∧ imm.toInt ≤ 2047 := of_decide_eq_true h
  refine signExtend_low 12 (by omega) (by omega) _ _ ?_ (by norm_num; omega)
  rw [BitVec.extractLsb'_toNat, encI_eq_encR, encR_toNat]
  simp only [Nat.shiftRight_eq_div_pow, BitVec.extractLsb'_toNat, Nat.reducePow, Nat.div_one]
  omega

/-- The S immediate of an encoded word (30_encoding.md R89). -/
theorem immS_encS (h : wfImm12 imm = true) : immS (encS imm rs2 rs1 f3 op) = imm := by
  have h' : -2048 ≤ imm.toInt ∧ imm.toInt ≤ 2047 := of_decide_eq_true h
  refine signExtend_low 12 (by omega) (by omega) _ _ ?_ (by norm_num; omega)
  change BitVec.toNat (w := 7 + 5) (fieldFunct7 (encS imm rs2 rs1 f3 op) ++ fieldRd (encS imm rs2 rs1 f3 op)) = _
  rw [encS_eq_encR, fieldFunct7_encR, fieldRd_encR, BitVec.toNat_append, ← Nat.shiftLeft_add_eq_or_of_lt (by omega)]
  simp only [BitVec.extractLsb'_toNat, Nat.shiftRight_eq_div_pow, Nat.shiftLeft_eq, Nat.reducePow, Nat.div_one]
  omega

/-- The immediate's parts in a number laid out as the B format. -/
theorem b_parts (A B C D r2 r1 f o : Nat) (hA : A < 2) (hB : B < 64) (hC : C < 16) (hD : D < 2)
    (h2 : r2 < 32) (h1 : r1 < 32) (hf : f < 8) (ho : o < 128) {W : Nat}
    (h : W = (A * 64 + B) * 33554432 + r2 * 1048576 + r1 * 32768 + f * 4096 + (C * 2 + D) * 128 + o) :
    W / 2147483648 % 2 = A ∧ W / 128 % 2 = D ∧ W / 33554432 % 64 = B ∧ W / 256 % 16 = C := by
  subst h
  refine ⟨?_, ?_, ?_, ?_⟩ <;> omega

/-- The immediate's parts in a number laid out as the J format. -/
theorem j_parts (A B C D r o : Nat) (hA : A < 2) (hB : B < 1024) (hC : C < 2) (hD : D < 256)
    (hr : r < 32) (ho : o < 128) {W : Nat}
    (h : W = A * 2147483648 + B * 2097152 + C * 1048576 + D * 4096 + r * 128 + o) :
    W / 2147483648 % 2 = A ∧ W / 4096 % 256 = D ∧ W / 1048576 % 2 = C ∧ W / 2097152 % 1024 = B := by
  subst h
  refine ⟨?_, ?_, ?_, ?_⟩ <;> omega

/-- An even number from its B format parts. -/
theorem b_whole (v : Nat) (h : v % 2 = 0) :
    (((v / 4096 % 2 * 2 + v / 2048 % 2) * 64 + v / 32 % 64) * 16 + v / 2 % 16) * 2 = v % 8192 := by
  have h1 : v / 32 = v / 2 / 16 := by omega
  have h2 : v / 2048 = v / 2 / 16 / 64 := by omega
  have h3 : v / 4096 = v / 2 / 16 / 64 / 2 := by omega
  have h4 : v % 8192 = v / 2 % 4096 * 2 := by omega
  rw [h1, h2, h3, h4]
  generalize v / 2 = q
  have h5 : q % 4096 = q / 16 % 256 * 16 + q % 16 := by omega
  rw [h5]
  generalize q / 16 = r
  omega

/-- An even number from its J format parts. -/
theorem j_whole (v : Nat) (h : v % 2 = 0) :
    (((v / 1048576 % 2 * 256 + v / 4096 % 256) * 2 + v / 2048 % 2) * 1024 + v / 2 % 1024) * 2 = v % 2097152 := by
  have h1 : v / 2048 = v / 2 / 1024 := by omega
  have h2 : v / 4096 = v / 2 / 1024 / 2 := by omega
  have h3 : v / 1048576 = v / 2 / 1024 / 2 / 256 := by omega
  have h4 : v % 2097152 = v / 2 % 1048576 * 2 := by omega
  rw [h1, h2, h3, h4]
  generalize v / 2 = q
  have h5 : q % 1048576 = q / 1024 % 1024 * 1024 + q % 1024 := by omega
  rw [h5]
  generalize q / 1024 = r
  omega

/-- The B immediate of an encoded word (30_encoding.md R90). -/
theorem immB_encB (h : wfImmB imm = true) : immB (encB imm rs2 rs1 f3 op) = imm := by
  have h' : -4096 ≤ imm.toInt ∧ imm.toInt ≤ 4094 ∧ imm.toNat % 2 = 0 := of_decide_eq_true h
  refine signExtend_low 13 (by omega) (by omega) _ _ ?_ (by norm_num; omega)
  change BitVec.toNat (w := 1 + 1 + 6 + 4 + 1) _ = _
  simp only [BitVec.toNat_append]
  rw [← Nat.shiftLeft_add_eq_or_of_lt (by simp), ← Nat.shiftLeft_add_eq_or_of_lt (by omega),
    ← Nat.shiftLeft_add_eq_or_of_lt (by omega), ← Nat.shiftLeft_add_eq_or_of_lt (by omega)]
  have h7 : (imm.extractLsb' 12 1 ++ imm.extractLsb' 5 6 : BitVec (1 + 6)).toNat =
      imm.toNat / 2 ^ 12 % 2 * 64 + imm.toNat / 2 ^ 5 % 64 := by
    rw [BitVec.toNat_append, ← Nat.shiftLeft_add_eq_or_of_lt (by omega)]
    simp only [BitVec.extractLsb'_toNat, Nat.shiftRight_eq_div_pow, Nat.shiftLeft_eq]
  have h5 : (imm.extractLsb' 1 4 ++ imm.extractLsb' 11 1 : BitVec (4 + 1)).toNat =
      imm.toNat / 2 % 16 * 2 + imm.toNat / 2 ^ 11 % 2 := by
    rw [BitVec.toNat_append, ← Nat.shiftLeft_add_eq_or_of_lt (by omega)]
    simp only [BitVec.extractLsb'_toNat, Nat.shiftRight_eq_div_pow, Nat.shiftLeft_eq]
  have hw : (encB imm rs2 rs1 f3 op).toNat = (imm.toNat / 2 ^ 12 % 2 * 64 + imm.toNat / 2 ^ 5 % 64) * 2 ^ 25 +
      rs2.toNat * 2 ^ 20 + rs1.toNat * 2 ^ 15 + f3.toNat * 2 ^ 12 +
      (imm.toNat / 2 % 16 * 2 + imm.toNat / 2 ^ 11 % 2) * 2 ^ 7 + op.toNat := by
    rw [encB_eq_encR, encR_toNat, ← h7, ← h5]
  obtain ⟨p1, p2, p3, p4⟩ := b_parts _ _ _ _ _ _ _ _ (by omega) (by omega) (by omega) (by omega) rs2.isLt rs1.isLt
    f3.isLt op.isLt hw
  simp only [BitVec.extractLsb'_toNat, Nat.shiftRight_eq_div_pow, Nat.shiftLeft_eq, BitVec.toNat_ofNat, Nat.reducePow,
    p1, p2, p3, p4]
  rw [← b_whole _ h'.2.2]
  rfl

/-- The U immediate of an encoded word (30_encoding.md R91). -/
theorem immU_encU (h : wfImmU imm = true) : immU (encU imm rd op) = imm := by
  have h' : imm.toNat % 4096 = 0 := of_decide_eq_true h
  apply BitVec.eq_of_toNat_eq
  unfold immU
  change BitVec.toNat (w := 20 + 12) _ = _
  rw [BitVec.toNat_append, ← Nat.shiftLeft_add_eq_or_of_lt (by simp)]
  simp only [BitVec.extractLsb'_toNat, encU_toNat, Nat.shiftRight_eq_div_pow, Nat.shiftLeft_eq, BitVec.toNat_ofNat, Nat.reducePow]
  omega

/-- The J immediate of an encoded word (30_encoding.md R92). -/
theorem immJ_encJ (h : wfImmJ imm = true) : immJ (encJ imm rd op) = imm := by
  have h' : -1048576 ≤ imm.toInt ∧ imm.toInt ≤ 1048574 ∧ imm.toNat % 2 = 0 := of_decide_eq_true h
  refine signExtend_low 21 (by omega) (by omega) _ _ ?_ (by norm_num; omega)
  change BitVec.toNat (w := 1 + 8 + 1 + 10 + 1) _ = _
  simp only [BitVec.toNat_append]
  rw [← Nat.shiftLeft_add_eq_or_of_lt (by simp), ← Nat.shiftLeft_add_eq_or_of_lt (by omega),
    ← Nat.shiftLeft_add_eq_or_of_lt (by omega), ← Nat.shiftLeft_add_eq_or_of_lt (by omega)]
  obtain ⟨p1, p2, p3, p4⟩ := j_parts _ _ _ _ _ _ (by omega) (by omega) (by omega) (by omega) rd.isLt op.isLt
    (encJ_toNat rd op imm)
  simp only [BitVec.extractLsb'_toNat, Nat.shiftRight_eq_div_pow, Nat.shiftLeft_eq, BitVec.toNat_ofNat, Nat.reducePow,
    p1, p2, p3, p4]
  rw [← j_whole _ h'.2.2]
  rfl

/-- The shift amount of an encoded word (30_encoding.md R93). -/
theorem immShamt_encShift (h : wfShamt imm = true) : immShamt (encShift f7 imm rs1 f3 rd op) = imm := by
  have h' : imm.toNat < 32 := of_decide_eq_true h
  apply BitVec.eq_of_toNat_eq
  unfold immShamt encShift
  simp only [BitVec.truncate_eq_setWidth, BitVec.toNat_setWidth, BitVec.extractLsb'_toNat, encR_toNat,
    Nat.shiftRight_eq_div_pow]
  omega

end Sys2Proof
end

