-- ==== Sys2Proof/Laws/State.lean ====
section
/-! SUPPORT. One lemma per field per update of the state, and the register file's laws. -/

namespace Sys2Proof.Machine

variable (s : State) (p : Params) (f : FaultRecord) (d : Delta) (w : Word)

@[simp] theorem ofParams_regs : (State.ofParams p).regs = p.resetRegs := rfl
@[simp] theorem ofParams_pc : (State.ofParams p).pc = p.entry := rfl
@[simp] theorem ofParams_status : (State.ofParams p).status = .ready := rfl
@[simp] theorem ofParams_exitCode : (State.ofParams p).exitCode = none := rfl
@[simp] theorem ofParams_fault : (State.ofParams p).fault = none := rfl
@[simp] theorem ofParams_stdout : (State.ofParams p).stdout = [] := rfl
@[simp] theorem ofParams_mem : (State.ofParams p).mem = p.initMem := rfl
@[simp] theorem ofParams_params : (State.ofParams p).params = p := rfl

@[simp] theorem takeFault_regs : (s.takeFault f).regs = s.regs := rfl
@[simp] theorem takeFault_pc : (s.takeFault f).pc = s.pc := rfl
@[simp] theorem takeFault_status : (s.takeFault f).status = .haltErr := rfl
@[simp] theorem takeFault_exitCode : (s.takeFault f).exitCode = s.exitCode := rfl
@[simp] theorem takeFault_fault : (s.takeFault f).fault = some f := rfl
@[simp] theorem takeFault_stdout : (s.takeFault f).stdout = s.stdout := rfl
@[simp] theorem takeFault_mem : (s.takeFault f).mem = s.mem := rfl
@[simp] theorem takeFault_params : (s.takeFault f).params = s.params := rfl

@[simp] theorem commit_pc : (s.commit d).pc = d.nextPc := rfl
@[simp] theorem commit_status : (s.commit d).status = statusAfter s.params d.exit d.nextPc := rfl
@[simp] theorem commit_exitCode : (s.commit d).exitCode = d.exit.or s.exitCode := rfl
@[simp] theorem commit_fault : (s.commit d).fault = s.fault := rfl
@[simp] theorem commit_stdout : (s.commit d).stdout = s.stdout ++ d.out := rfl
@[simp] theorem commit_params : (s.commit d).params = s.params := rfl

theorem commit_regs_none (h : d.reg = none) : (s.commit d).regs = s.regs := by
  simp [State.commit, h]

theorem commit_regs_some {r : RegIdx} {v : Word} (h : d.reg = some (r, v)) :
    (s.commit d).regs = writeRegs s.regs r v := by
  simp [State.commit, h]

theorem commit_mem_none (h : d.store = none) : (s.commit d).mem = s.mem := by
  simp [State.commit, h]

theorem commit_mem_some {m : MemWrite} (h : d.store = some m) :
    (s.commit d).mem = Memory.setBytes s.mem m.addr m.bytes := by
  simp [State.commit, h]

@[simp] theorem apply_ok : s.apply (.ok d) = s.commit d := rfl
@[simp] theorem apply_error : s.apply (.error f) = s.takeFault f := rfl

@[simp] theorem placeWord_regs : (s.placeWord w).regs = s.regs := rfl
@[simp] theorem placeWord_pc : (s.placeWord w).pc = s.pc := rfl
@[simp] theorem placeWord_exitCode : (s.placeWord w).exitCode = s.exitCode := rfl
@[simp] theorem placeWord_fault : (s.placeWord w).fault = s.fault := rfl
@[simp] theorem placeWord_stdout : (s.placeWord w).stdout = s.stdout := rfl
@[simp] theorem placeWord_mem : (s.placeWord w).mem = s.mem := rfl

/-! ### Register file -/

@[simp] theorem readReg_zero : s.readReg 0 = 0 := rfl

@[simp] theorem writeRegs_zero (regs : Vector Word 31) (v : Word) : writeRegs regs 0 v = regs := rfl

/-- A read depends on the register file alone. -/
theorem readReg_congr {s t : State} (h : t.regs = s.regs) (r : RegIdx) : t.readReg r = s.readReg r := by
  simp [State.readReg, h]

/-- What a register reads after a write to the file: the law of the register file (10_state.md R21, R22). -/
theorem readReg_write {s t : State} {rd : RegIdx} {v : Word} (h : t.regs = writeRegs s.regs rd v) (r : RegIdx) :
    t.readReg r = if r = 0 then 0 else if r = rd then v else s.readReg r := by
  unfold State.readReg writeRegs at *
  by_cases hr : r = 0
  · simp [hr]
  by_cases hrd : rd = 0
  · have : r ≠ rd := fun e => hr (e.trans hrd)
    simp only [h, hr, hrd, if_false, if_true]
  have hr' : r.toNat ≠ 0 := fun e => hr (BitVec.eq_of_toNat_eq (by simpa using e))
  have hd' : rd.toNat ≠ 0 := fun e => hrd (BitVec.eq_of_toNat_eq (by simpa using e))
  simp only [h, hr, hrd, if_false]
  by_cases e : r = rd
  · subst e; simp
  · have : rd.toNat - 1 ≠ r.toNat - 1 := by
      intro h'
      exact e (BitVec.eq_of_toNat_eq (by omega))
    simp [e, Vector.getElem_set_ne, this]

/-- The 32-register view reads as the registers do (47_step_cycle.md R223). -/
theorem regs32_get (k : Nat) (h : k < 32) : s.regs32[k] = s.readReg (BitVec.ofNat 5 k) := by
  unfold State.regs32 State.readReg
  cases k with
  | zero => rw [Vector.getElem_append_left (by omega)]; rfl
  | succ k =>
    have h0 : BitVec.ofNat 5 (k + 1) ≠ 0 := by
      intro e
      have := congrArg BitVec.toNat e
      simp at this
      omega
    have h1 : (BitVec.ofNat 5 (k + 1)).toNat - 1 = k := by
      simp; omega
    simp only [h0, if_false, h1]
    rw [Vector.getElem_append_right (by omega) (by omega)]
    simp

end Sys2Proof.Machine
end

