-- ==== Sys2Proof/Laws/Memory.lean ====
section
/-! SUPPORT. The laws of the data memory: a read after a write, the canonical form every write keeps, and
that canonical memories which read alike are equal. -/

namespace Sys2Proof.Machine.Memory

open Sys2Proof

/-- Below the first cell of a canonical memory every byte is unlisted. -/
theorem get_of_lt {m : List Host.Cell} {lo a : Nat} (h : wfFrom lo m = true) (ha : a < lo) :
    get m a = Config.unlistedByte := by
  induction m generalizing lo with
  | nil => rfl
  | cons c m ih =>
    obtain ⟨k, b⟩ := c
    simp only [wfFrom, Bool.and_eq_true, decide_eq_true_eq] at h
    have : k ≠ a := by omega
    simp only [get, this, if_false]
    exact ih h.2 (by omega)

theorem wfFrom_mono {m : List Host.Cell} {lo lo' : Nat} (h : wfFrom lo m = true) (hl : lo' ≤ lo) :
    wfFrom lo' m = true := by
  cases m with
  | nil => rfl
  | cons c m =>
    obtain ⟨k, b⟩ := c
    simp only [wfFrom, Bool.and_eq_true, decide_eq_true_eq] at *
    exact ⟨⟨by omega, h.1.2⟩, h.2⟩

theorem get_nil (x : Nat) : get [] x = Config.unlistedByte := rfl

theorem get_cons (k : Nat) (c : Byte) (m : List Host.Cell) (x : Nat) :
    get ((k, c) :: m) x = if k = x then c else get m x := rfl

/-- A read after one byte was written, in a canonical memory. -/
theorem get_set_from {m : List Host.Cell} {lo : Nat} (h : wfFrom lo m = true) (a : Nat) (b : Byte) (x : Nat) :
    get (set m a b) x = if x = a then b else get m x := by
  induction m generalizing lo with
  | nil =>
    unfold set
    split
    · rename_i hb; simp [get_nil, hb]
    · simp [get_nil, get_cons, eq_comm]
  | cons c m ih =>
    obtain ⟨k, c⟩ := c
    simp only [wfFrom, Bool.and_eq_true, decide_eq_true_eq] at h
    have hbelow : ∀ y, y ≤ k → get m y = Config.unlistedByte := fun y hy => get_of_lt h.2 (by omega)
    unfold set
    split
    · rename_i hka
      rw [get_cons, get_cons, ih h.2]
      by_cases hk : k = x
      · have : x ≠ a := by omega
        simp [hk, this]
      · simp [hk]
    · split
      · rename_i _ hka
        subst hka
        by_cases hx : x = k
        · subst hx
          split
          · rename_i hb; simp [hb, hbelow x (Nat.le_refl x)]
          · simp [get_cons]
        · have hx' : k ≠ x := fun e => hx e.symm
          split <;> simp [get_cons, hx']
      · rename_i h1 h2
        by_cases hx : x = a
        · subst hx
          split
          · rename_i hb
            have : k ≠ x := h2
            simp [get_cons, this, hb, hbelow x (by omega)]
          · simp [get_cons]
        · have hx' : a ≠ x := fun e => hx e.symm
          split <;> simp [get_cons, hx']

/-- A read after one byte was written. -/
theorem get_set {m : List Host.Cell} (h : wf m = true) (a : Nat) (b : Byte) (x : Nat) :
    get (set m a b) x = if x = a then b else get m x := get_set_from h a b x

theorem wfFrom_nil (lo : Nat) : wfFrom lo [] = true := rfl

theorem wfFrom_cons (lo k : Nat) (c : Byte) (m : List Host.Cell) :
    wfFrom lo ((k, c) :: m) = true ↔ lo ≤ k ∧ c ≠ Config.unlistedByte ∧ wfFrom (k + 1) m = true := by
  simp only [wfFrom, Bool.and_eq_true, decide_eq_true_eq, and_assoc]

theorem wfFrom_set {m : List Host.Cell} {lo : Nat} (h : wfFrom lo m = true) {a : Nat} (ha : lo ≤ a) (b : Byte) :
    wfFrom lo (set m a b) = true := by
  induction m generalizing lo with
  | nil =>
    unfold set
    split
    · rfl
    · rename_i hb; exact (wfFrom_cons ..).2 ⟨ha, hb, rfl⟩
  | cons c m ih =>
    obtain ⟨k, c⟩ := c
    have h' := (wfFrom_cons ..).1 h
    unfold set
    split
    · exact (wfFrom_cons ..).2 ⟨h'.1, h'.2.1, ih h'.2.2 (by omega)⟩
    · split
      · rename_i _ hka
        subst hka
        split
        · exact wfFrom_mono h'.2.2 (by omega)
        · rename_i hb; exact (wfFrom_cons ..).2 ⟨ha, hb, h'.2.2⟩
      · split
        · exact h
        · rename_i hb
          exact (wfFrom_cons ..).2 ⟨ha, hb, (wfFrom_cons ..).2 ⟨by omega, h'.2⟩⟩

/-- Writing a byte keeps the canonical form. -/
theorem wf_set {m : List Host.Cell} (h : wf m = true) (a : Nat) (b : Byte) : wf (set m a b) = true :=
  wfFrom_set h (Nat.zero_le a) b

/-- Writing bytes keeps the canonical form. -/
theorem wf_setBytes {m : List Host.Cell} (h : wf m = true) (a : Nat) (bs : List Byte) :
    wf (setBytes m a bs) = true := by
  induction bs generalizing m a with
  | nil => exact h
  | cons b bs ih => exact ih (wf_set h a b) (a + 1)

/-- A read after bytes were written at `a`. -/
theorem get_setBytes {m : List Host.Cell} (h : wf m = true) (a : Nat) (bs : List Byte) (x : Nat) :
    get (setBytes m a bs) x = if a ≤ x ∧ x < a + bs.length then bs.getD (x - a) 0 else get m x := by
  induction bs generalizing m a with
  | nil => simp [setBytes]
  | cons b bs ih =>
    rw [setBytes, ih (wf_set h a b), get_set h]
    by_cases hx : x = a
    · subst hx; simp
    · by_cases hin : a + 1 ≤ x ∧ x < a + 1 + bs.length
      · have : x - a = (x - (a + 1)) + 1 := by omega
        have h2 : a ≤ x ∧ x < a + (bs.length + 1) := by omega
        simp [hin, h2, this]
      · have h2 : ¬ (a ≤ x ∧ x < a + (b :: bs).length) := by simp only [List.length_cons]; omega
        rw [if_neg hin, if_neg hx, if_neg h2]

theorem within_cons (bound k : Nat) (c : Byte) (m : List Host.Cell) :
    within bound ((k, c) :: m) = (decide (k < bound) && within bound m) := rfl

theorem within_set {m : List Host.Cell} {bound a : Nat} (h : within bound m = true) (ha : a < bound) (b : Byte) :
    within bound (set m a b) = true := by
  induction m with
  | nil =>
    unfold set
    split
    · rfl
    · simp [within, ha]
  | cons c m ih =>
    obtain ⟨k, c⟩ := c
    rw [within_cons, Bool.and_eq_true, decide_eq_true_eq] at h
    unfold set
    split
    · rw [within_cons, ih h.2]; simp [h.1]
    · split <;> split <;> simp only [within_cons, h.1, h.2, ha, decide_true, Bool.and_self]

/-- Writing bytes below the bound lists no cell above it. -/
theorem within_setBytes {m : List Host.Cell} {bound a : Nat} {bs : List Byte} (h : within bound m = true)
    (ha : a + bs.length ≤ bound) : within bound (setBytes m a bs) = true := by
  induction bs generalizing m a with
  | nil => exact h
  | cons b bs ih =>
    have : a + bs.length + 1 ≤ bound := by simpa [Nat.add_assoc] using ha
    exact ih (within_set h (by omega) b) (by omega)

/-- Canonical memories that read alike are equal. -/
theorem eq_of_get_from {m m' : List Host.Cell} {lo : Nat} (h : wfFrom lo m = true) (h' : wfFrom lo m' = true)
    (hg : ∀ a, get m a = get m' a) : m = m' := by
  induction m generalizing m' lo with
  | nil =>
    cases m' with
    | nil => rfl
    | cons c m' =>
      obtain ⟨k, b⟩ := c
      simp only [wfFrom, Bool.and_eq_true, decide_eq_true_eq] at h'
      exact absurd (by simpa [get] using (hg k).symm) h'.1.2
  | cons c m ih =>
    obtain ⟨k, b⟩ := c
    cases m' with
    | nil =>
      simp only [wfFrom, Bool.and_eq_true, decide_eq_true_eq] at h
      exact absurd (by simpa [get] using hg k) h.1.2
    | cons c' m' =>
      obtain ⟨k', b'⟩ := c'
      simp only [wfFrom, Bool.and_eq_true, decide_eq_true_eq] at h h'
      have hk : k = k' := by
        rcases Nat.lt_trichotomy k k' with hlt | heq | hgt
        · have h1 := hg k
          have h2 : get m' k = Config.unlistedByte := get_of_lt h'.2 (by omega)
          simp [get, show k' ≠ k by omega, h2] at h1
          exact absurd h1 h.1.2
        · exact heq
        · have h1 := hg k'
          have h2 : get m k' = Config.unlistedByte := get_of_lt h.2 (by omega)
          simp [get, show k ≠ k' by omega, h2] at h1
          exact absurd h1.symm h'.1.2
      subst hk
      have hb : b = b' := by simpa [get] using hg k
      subst hb
      congr 1
      refine ih h.2 h'.2 fun a => ?_
      by_cases ha : k = a
      · subst ha
        rw [get_of_lt h.2 (by omega), get_of_lt h'.2 (by omega)]
      · simpa [get, ha] using hg a

theorem eq_of_get {m m' : List Host.Cell} (h : wf m = true) (h' : wf m' = true)
    (hg : ∀ a, get m a = get m' a) : m = m' := eq_of_get_from h h' hg

@[simp] theorem getBytes_length (m : List Host.Cell) (a n : Nat) : (getBytes m a n).length = n := by
  induction n generalizing a with
  | zero => rfl
  | succ n ih => simp [getBytes, ih]

/-- The k-th byte of a block read. -/
theorem getBytes_get (m : List Host.Cell) (a n k : Nat) (h : k < n) : (getBytes m a n)[k]? = some (get m (a + k)) := by
  induction n generalizing a k with
  | zero => omega
  | succ n ih =>
    cases k with
    | zero => simp [getBytes]
    | succ k =>
      have := ih (a + 1) k (by omega)
      simpa [getBytes, Nat.add_assoc, Nat.add_comm 1 k] using this

/-- The reset memory of `State.reset` is canonical. -/
theorem wf_reset : wf State.reset.mem = true := rfl

end Sys2Proof.Machine.Memory
end

