-- ==== Sys2Proof/Laws/Exec.lean ====
section
/-! SUPPORT. What executing an instruction can do, said once: `exec` is the application of one effect
(`exec_eq_apply`), and one lemma per shared shape of effect says everything it can be. -/

namespace Sys2Proof.Machine

/-- The effect an instruction has in a state (47_step_cycle.md R228 line 4). -/
def effectOf (i : Instr) (s : State) : Effect :=
  match i with
  | .lui rd imm => s.writeRd rd imm
  | .auipc rd imm => s.writeRd rd (aluAdd s.pc imm)
  | .jal rd imm => s.jump rd (s.pc + imm)
  | .jalr rd rs1 imm => s.jump rd (s.jalrTarget rs1 imm)
  | .beq rs1 rs2 imm => s.branch (cmpEq (s.readReg rs1) (s.readReg rs2)) imm
  | .bne rs1 rs2 imm => s.branch (!cmpEq (s.readReg rs1) (s.readReg rs2)) imm
  | .blt rs1 rs2 imm => s.branch (cmpLt (s.readReg rs1) (s.readReg rs2)) imm
  | .bge rs1 rs2 imm => s.branch (!cmpLt (s.readReg rs1) (s.readReg rs2)) imm
  | .bltu rs1 rs2 imm => s.branch (cmpLtu (s.readReg rs1) (s.readReg rs2)) imm
  | .bgeu rs1 rs2 imm => s.branch (!cmpLtu (s.readReg rs1) (s.readReg rs2)) imm
  | .lb rd rs1 imm => s.load rd (s.loadS8 (s.effAddr rs1 imm))
  | .lh rd rs1 imm => s.load rd (s.loadS16 (s.effAddr rs1 imm))
  | .lw rd rs1 imm => s.load rd (s.load32 (s.effAddr rs1 imm))
  | .lbu rd rs1 imm => s.load rd (s.loadU8 (s.effAddr rs1 imm))
  | .lhu rd rs1 imm => s.load rd (s.loadU16 (s.effAddr rs1 imm))
  | .sb rs1 rs2 imm => s.store (s.effAddr rs1 imm) (s.storeBytes8 rs2)
  | .sh rs1 rs2 imm => s.store (s.effAddr rs1 imm) (s.storeBytes16 rs2)
  | .sw rs1 rs2 imm => s.store (s.effAddr rs1 imm) (s.storeBytes32 rs2)
  | .addi rd rs1 imm => s.writeRd rd (aluAdd (s.readReg rs1) imm)
  | .slti rd rs1 imm => s.writeRd rd (aluSlt (s.readReg rs1) imm)
  | .sltiu rd rs1 imm => s.writeRd rd (aluSltu (s.readReg rs1) imm)
  | .xori rd rs1 imm => s.writeRd rd (aluXor (s.readReg rs1) imm)
  | .ori rd rs1 imm => s.writeRd rd (aluOr (s.readReg rs1) imm)
  | .andi rd rs1 imm => s.writeRd rd (aluAnd (s.readReg rs1) imm)
  | .slli rd rs1 imm => s.writeRd rd (aluSll (s.readReg rs1) imm)
  | .srli rd rs1 imm => s.writeRd rd (aluSrl (s.readReg rs1) imm)
  | .srai rd rs1 imm => s.writeRd rd (aluSra (s.readReg rs1) imm)
  | .add rd rs1 rs2 => s.writeRd rd (aluAdd (s.readReg rs1) (s.readReg rs2))
  | .sub rd rs1 rs2 => s.writeRd rd (aluSub (s.readReg rs1) (s.readReg rs2))
  | .sll rd rs1 rs2 => s.writeRd rd (aluSll (s.readReg rs1) (s.readReg rs2))
  | .slt rd rs1 rs2 => s.writeRd rd (aluSlt (s.readReg rs1) (s.readReg rs2))
  | .sltu rd rs1 rs2 => s.writeRd rd (aluSltu (s.readReg rs1) (s.readReg rs2))
  | .xor rd rs1 rs2 => s.writeRd rd (aluXor (s.readReg rs1) (s.readReg rs2))
  | .srl rd rs1 rs2 => s.writeRd rd (aluSrl (s.readReg rs1) (s.readReg rs2))
  | .sra rd rs1 rs2 => s.writeRd rd (aluSra (s.readReg rs1) (s.readReg rs2))
  | .or rd rs1 rs2 => s.writeRd rd (aluOr (s.readReg rs1) (s.readReg rs2))
  | .and rd rs1 rs2 => s.writeRd rd (aluAnd (s.readReg rs1) (s.readReg rs2))
  | .fence => s.advance
  | .ecall => s.answered s.callEnv
  | .ebreak => .error ⟨.unsupportedOperation, ebreakWord⟩

/-- Executing an instruction applies its effect; it never stops the machine. -/
theorem exec_eq_apply (i : Instr) (s : State) : exec i s = .next (s.apply (effectOf i s)) := by
  cases i <;> rfl

/-- The next state of an instruction. -/
theorem exec_next_iff {i : Instr} {s t : State} : exec i s = .next t ↔ t = s.apply (effectOf i s) := by
  rw [exec_eq_apply]
  exact ⟨fun h => by cases h; rfl, fun h => by rw [h]⟩

/-- An effect that is a delta is committed. -/
theorem exec_of_ok {i : Instr} {s : State} {d : Delta} (h : effectOf i s = .ok d) :
    exec i s = .next (s.commit d) := by
  rw [exec_eq_apply, h]; rfl

/-- An effect that is a fault is taken, and is all that happens (60_exceptions.md R255, R256). -/
theorem exec_of_error {i : Instr} {s : State} {c : Cause} {info : Word} (h : effectOf i s = .error ⟨c, info⟩) :
    exec i s = .next (faulted s c info) := by
  rw [exec_eq_apply, h]; rfl

/-! ### Every shape of effect -/

theorem writeRd_eq (s : State) (rd : RegIdx) (v : Word) :
    s.writeRd rd v = .ok { reg := some (rd, v), nextPc := s.pc + 4 } := rfl

theorem advance_eq (s : State) : s.advance = .ok { nextPc := s.pc + 4 } := rfl

theorem extract_low2_eq_zero (t : Word) : t.extractLsb' 0 2 = 0#2 ↔ t.toNat % 4 = 0 := by
  rw [← BitVec.toNat_inj]
  simp

/-- The alignment check passes exactly on the multiples of 4 (44_jumps.md R173). -/
theorem checkTarget_eq (t : Word) :
    checkTarget t = if t.toNat % 4 = 0 then .ok t else .error ⟨.misalignedTarget, t⟩ := by
  simp only [checkTarget, extract_low2_eq_zero]

/-- Everything a branch can do (43_branches.md R160). -/
theorem branch_eq (s : State) (c : Bool) (imm : Word) :
    s.branch c imm =
      if c then
        if (s.pc + imm).toNat % 4 = 0 then .ok { nextPc := s.pc + imm }
        else .error ⟨.misalignedTarget, s.pc + imm⟩
      else .ok { nextPc := s.pc + 4 } := by
  unfold State.branch
  rw [checkTarget_eq]
  cases c
  · rfl
  · by_cases h : (s.pc + imm).toNat % 4 = 0
    · simp only [h, if_true]
    · simp only [h, if_true, if_false]

/-- Everything a jump can do (44_jumps.md R170). -/
theorem jump_eq (s : State) (rd : RegIdx) (t : Word) :
    s.jump rd t =
      if t.toNat % 4 = 0 then .ok { reg := some (rd, s.pc + 4), nextPc := t }
      else .error ⟨.misalignedTarget, t⟩ := by
  unfold State.jump
  rw [checkTarget_eq]
  by_cases h : t.toNat % 4 = 0
  · simp only [h, if_true]; rfl
  · simp only [h, if_false]

/-- Everything a store can do (45_loads_stores.md R190). -/
theorem store_eq (s : State) (ea : Word) (bs : List Byte) :
    s.store ea bs =
      if ea.toNat + bs.length ≤ s.params.memBound then
        .ok { store := some ⟨ea.toNat, bs⟩, nextPc := s.pc + 4 }
      else .error ⟨.memoryFault, ea⟩ := by
  unfold State.store State.memWrite State.admits
  by_cases h : ea.toNat + bs.length ≤ s.params.memBound
  · simp only [h, decide_true, if_true]; rfl
  · simp only [h, decide_false, if_false]; rfl

/-- Everything a load can do (45_loads_stores.md R190), from what its read gives. -/
theorem load_eq_ite (s : State) (rd : RegIdx) (ea v : Word) (n : Nat) (r : Except FaultRecord Word)
    (h : r = if ea.toNat + n ≤ s.params.memBound then .ok v else .error ⟨.memoryFault, ea⟩) :
    s.load rd r =
      if ea.toNat + n ≤ s.params.memBound then .ok { reg := some (rd, v), nextPc := s.pc + 4 }
      else .error ⟨.memoryFault, ea⟩ := by
  subst h
  unfold State.load
  by_cases h : ea.toNat + n ≤ s.params.memBound
  · simp only [h, if_true]; rfl
  · simp only [h, if_false]

theorem loadS8_eq (s : State) (ea : Word) : s.loadS8 ea =
    if ea.toNat + 1 ≤ s.params.memBound then .ok ((s.byte ea.toNat).signExtend 32)
    else .error ⟨.memoryFault, ea⟩ := by
  simp only [State.loadS8, State.memRead8, State.admits, decide_eq_true_eq]
  split <;> rfl

theorem loadU8_eq (s : State) (ea : Word) : s.loadU8 ea =
    if ea.toNat + 1 ≤ s.params.memBound then .ok ((s.byte ea.toNat).zeroExtend 32)
    else .error ⟨.memoryFault, ea⟩ := by
  simp only [State.loadU8, State.memRead8, State.admits, decide_eq_true_eq]
  split <;> rfl

theorem loadS16_eq (s : State) (ea : Word) : s.loadS16 ea =
    if ea.toNat + 2 ≤ s.params.memBound then .ok ((s.byte (ea.toNat + 1) ++ s.byte ea.toNat).signExtend 32)
    else .error ⟨.memoryFault, ea⟩ := by
  simp only [State.loadS16, State.memRead16, State.admits, decide_eq_true_eq]
  split <;> rfl

theorem loadU16_eq (s : State) (ea : Word) : s.loadU16 ea =
    if ea.toNat + 2 ≤ s.params.memBound then .ok ((s.byte (ea.toNat + 1) ++ s.byte ea.toNat).zeroExtend 32)
    else .error ⟨.memoryFault, ea⟩ := by
  simp only [State.loadU16, State.memRead16, State.admits, decide_eq_true_eq]
  split <;> rfl

theorem load32_eq (s : State) (ea : Word) : s.load32 ea =
    if ea.toNat + 4 ≤ s.params.memBound then
      .ok (s.byte (ea.toNat + 3) ++ s.byte (ea.toNat + 2) ++ s.byte (ea.toNat + 1) ++ s.byte ea.toNat)
    else .error ⟨.memoryFault, ea⟩ := by
  simp only [State.load32, State.memRead32, State.admits, decide_eq_true_eq]
  split <;> rfl

/-- What any effect of a load is: the access refused, or one register written. -/
theorem load_cases (s : State) (rd : RegIdx) (r : Except FaultRecord Word) :
    (∃ v, s.load rd r = .ok { reg := some (rd, v), nextPc := s.pc + 4 }) ∨ (∃ f, r = .error f ∧ s.load rd r = .error f) := by
  cases r with
  | ok v => exact .inl ⟨v, rfl⟩
  | error f => exact .inr ⟨f, rfl, rfl⟩

/-- Everything an ECALL can do (46_system.md R203). -/
theorem ecall_cases (s : State) :
    (∃ bytes, s.callEnv = .goOn bytes ∧ effectOf .ecall s = .ok { out := bytes, nextPc := s.pc + 4 }) ∨
    (∃ code, s.callEnv = .exit code ∧ effectOf .ecall s = .ok { exit := some code, nextPc := s.pc + 4 }) ∨
    (∃ cause info, s.callEnv = .fail cause info ∧ effectOf .ecall s = .error ⟨envCause cause, info⟩) := by
  simp only [effectOf]
  cases s.callEnv
  · exact .inl ⟨_, rfl, rfl⟩
  · exact .inr (.inl ⟨_, rfl, rfl⟩)
  · exact .inr (.inr ⟨_, _, rfl, rfl⟩)

/-- Everything the reference environment can answer (46_system.md R204). -/
theorem callEnv_reference (s : State) (h : s.params.env = .reference) :
    s.callEnv = match (s.readReg 17).toNat with
      | 1 => .goOn (decimalText (s.readReg 10))
      | 10 => .exit 0
      | 64 =>
        if (s.readReg 11).toNat + (s.readReg 12).toNat ≤ s.params.memBound then
          .goOn (Memory.getBytes s.mem (s.readReg 11).toNat (s.readReg 12).toNat)
        else .fail .memoryFault (s.readReg 11)
      | 93 => .exit (s.readReg 10)
      | _ => .fail .unsupportedSyscall (s.readReg 17) := by
  unfold State.callEnv
  rw [h]
  simp only [envRef, regs32_get]
  rfl

/-! ### Status and range -/

theorem inRange_iff (p : Params) (a : Word) : inRange p a = true ↔ InValidRange p a := by
  exact decide_eq_true_iff

theorem statusAfter_none (p : Params) (a : Word) : StatusByRange p a (statusAfter p none a) := by
  have h := inRange_iff p a
  by_cases hr : InValidRange p a
  · exact ⟨fun _ => by simp [statusAfter, h.2 hr], fun hn => absurd hr hn⟩
  · have : inRange p a = false := by simpa using fun e => hr (h.1 e)
    exact ⟨fun hn => absurd hn hr, fun _ => by simp [statusAfter, this]⟩

theorem statusAfter_ne_haltErr (p : Params) (e : Option Word) (a : Word) : statusAfter p e a ≠ .haltErr := by
  unfold statusAfter
  split
  · simp
  · split <;> simp

theorem statusAfter_ne_ready (p : Params) (e : Option Word) (a : Word) : statusAfter p e a ≠ .ready := by
  unfold statusAfter
  split
  · simp
  · split <;> simp

/-- A committed delta without exit code or output moves the PC and leaves the control state alone. -/
theorem commit_movesTo (s : State) (d : Delta) {pc : Word} (hp : d.nextPc = pc) (he : d.exit = none)
    (ho : d.out = []) : MovesTo s (s.commit d) pc where
  pcIs := hp
  statusIs := by simpa [he, hp] using statusAfter_none s.params pc
  exitCode := by simp [he]
  fault := rfl
  stdout := by simp [ho]
  params := rfl

/-- A committed register write, read back (10_state.md R21, R22). -/
theorem commit_regWritten (s : State) (d : Delta) {rd : RegIdx} {v : Word} (h : d.reg = some (rd, v)) :
    RegWritten s (s.commit d) rd v := fun r => readReg_write (commit_regs_some s d h) r

theorem commit_regsKept (s : State) (d : Delta) (h : d.reg = none) : RegsKept s (s.commit d) :=
  fun r => readReg_congr (commit_regs_none s d h) r

theorem commit_memKept (s : State) (d : Delta) (h : d.store = none) : MemKept s (s.commit d) :=
  fun a => by simp [State.byte, commit_mem_none s d h]

/-- A committed memory write, read back byte by byte (20_memory.md R55). -/
theorem commit_memWritten (s : State) (d : Delta) {a : Nat} {bs : List Byte} (hm : Memory.wf s.mem = true)
    (h : d.store = some ⟨a, bs⟩) : MemWritten s (s.commit d) a bs :=
  fun a => by rw [State.byte, commit_mem_some s d h, Memory.get_setBytes hm]; rfl

/-- What an effect leaves of the state that no effect changes. -/
theorem apply_params (s : State) (e : Effect) : (s.apply e).params = s.params := by cases e <;> rfl

/-! ### The step cycle -/

theorem halted_iff (s : State) : s.halted = true ↔ s.status = .haltDone ∨ s.status = .haltErr := by
  unfold State.halted
  cases s.status <;> simp

theorem not_halted_iff (s : State) : s.halted = false ↔ s.status = .ready ∨ s.status = .active := by
  unfold State.halted
  cases s.status <;> simp

/-- Everything a step can do: nothing when halted, the end of an empty program, an illegal word's fault,
or one instruction (47_step_cycle.md R228). -/
theorem step_cases (s : State) :
    (s.halted = true ∧ step s = .next s) ∨
    (s.halted = false ∧ s.fetch = none ∧ step s = .next { s with status := .haltDone }) ∨
    (s.halted = false ∧ ∃ iw, s.fetch = some iw ∧ decode iw = .error (.illegalInstruction iw) ∧
      step s = .next (s.takeFault ⟨.illegalInstruction, iw⟩)) ∨
    (s.halted = false ∧ ∃ iw i, s.fetch = some iw ∧ decode iw = .ok i ∧ step s = .next (s.apply (effectOf i s))) := by
  cases hh : s.halted with
  | true => exact .inl ⟨rfl, by simp [step, State.cycle, hh]⟩
  | false =>
    right
    cases hf : s.fetch with
    | none => exact .inl ⟨rfl, rfl, by simp [step, State.cycle, hh, hf]⟩
    | some iw =>
      right
      have hs : step s = s.runWord iw := by simp [step, State.cycle, hh, hf]
      unfold State.runWord at hs
      cases hd : decode iw with
      | error e =>
        have he : e = .illegalInstruction iw := by
          unfold decode at hd
          split at hd
          · cases hd
          · cases hd; rfl
        subst he
        rw [hd] at hs
        exact .inl ⟨rfl, iw, rfl, hd, hs⟩
      | ok i =>
        rw [hd] at hs
        exact .inr ⟨rfl, iw, i, rfl, hd, by rw [hs]; exact exec_eq_apply i s⟩

theorem fetch_some_inRange {s : State} {iw : Word} (h : s.fetch = some iw) : InValidRange s.params s.pc := by
  unfold State.fetch fetchAt at h
  split at h
  · exact (inRange_iff ..).1 (by assumption)
  · cases h

end Sys2Proof.Machine
end

