-- ==== Sys2Proof/Laws/PerInstr.lean ====
section
/-! SUPPORT. One lemma per instruction: its encoding selects the row of the opcode table that bears its
mnemonic, whatever its operands. -/

namespace Sys2Proof

/-- The operation tag of an instruction. -/
def Instr.mnemonic : Instr → Mnemonic
  | .lui _ _ => .lui
  | .auipc _ _ => .auipc
  | .jal _ _ => .jal
  | .jalr _ _ _ => .jalr
  | .beq _ _ _ => .beq
  | .bne _ _ _ => .bne
  | .blt _ _ _ => .blt
  | .bge _ _ _ => .bge
  | .bltu _ _ _ => .bltu
  | .bgeu _ _ _ => .bgeu
  | .lb _ _ _ => .lb
  | .lh _ _ _ => .lh
  | .lw _ _ _ => .lw
  | .lbu _ _ _ => .lbu
  | .lhu _ _ _ => .lhu
  | .sb _ _ _ => .sb
  | .sh _ _ _ => .sh
  | .sw _ _ _ => .sw
  | .addi _ _ _ => .addi
  | .slti _ _ _ => .slti
  | .sltiu _ _ _ => .sltiu
  | .xori _ _ _ => .xori
  | .ori _ _ _ => .ori
  | .andi _ _ _ => .andi
  | .slli _ _ _ => .slli
  | .srli _ _ _ => .srli
  | .srai _ _ _ => .srai
  | .add _ _ _ => .add
  | .sub _ _ _ => .sub
  | .sll _ _ _ => .sll
  | .slt _ _ _ => .slt
  | .sltu _ _ _ => .sltu
  | .xor _ _ _ => .xor
  | .srl _ _ _ => .srl
  | .sra _ _ _ => .sra
  | .or _ _ _ => .or
  | .and _ _ _ => .and
  | .fence => .fence
  | .ecall => .ecall
  | .ebreak => .ebreak

namespace Laws.EncodingSelectsRow

/-- Some row of the opcode table has the instruction's mnemonic and selects the instruction's encoding
(30_encoding.md R95). -/
def Statement (i : Instr) : Prop :=
  ∃ r ∈ opcodeRows, r.mnemonic = i.mnemonic ∧ r.selects (encode i) = true

theorem of_row {i : Instr} (r : Row) (hr : r ∈ opcodeRows) (hm : r.mnemonic = i.mnemonic)
    (h : encode i &&& r.mask = r.matchBits) : Statement i := ⟨r, hr, hm, by simpa [Row.selects] using h⟩

variable (rd rs1 rs2 : RegIdx) (imm : Word)

theorem lui : Statement (.lui rd imm) := of_row ⟨.lui, .u, 0x00000037, 0x0000007f⟩ (by decide) rfl ((masked7_iff _ rfl).2 (fieldOpcode_encU ..))
theorem auipc : Statement (.auipc rd imm) := of_row ⟨.auipc, .u, 0x00000017, 0x0000007f⟩ (by decide) rfl ((masked7_iff _ rfl).2 (fieldOpcode_encU ..))
theorem jal : Statement (.jal rd imm) := of_row ⟨.jal, .j, 0x0000006f, 0x0000007f⟩ (by decide) rfl ((masked7_iff _ rfl).2 (fieldOpcode_encJ ..))
theorem jalr : Statement (.jalr rd rs1 imm) := of_row ⟨.jalr, .i, 0x00000067, 0x0000707f⟩ (by decide) rfl ((masked3_iff _ rfl).2
    (by rw [encode, encI_eq_encR]; exact ⟨fieldOpcode_encR .., fieldFunct3_encR ..⟩))
theorem beq : Statement (.beq rs1 rs2 imm) := of_row ⟨.beq, .b, 0x00000063, 0x0000707f⟩ (by decide) rfl ((masked3_iff _ rfl).2
    (by rw [encode, encB_eq_encR]; exact ⟨fieldOpcode_encR .., fieldFunct3_encR ..⟩))
theorem bne : Statement (.bne rs1 rs2 imm) := of_row ⟨.bne, .b, 0x00001063, 0x0000707f⟩ (by decide) rfl ((masked3_iff _ rfl).2
    (by rw [encode, encB_eq_encR]; exact ⟨fieldOpcode_encR .., fieldFunct3_encR ..⟩))
theorem blt : Statement (.blt rs1 rs2 imm) := of_row ⟨.blt, .b, 0x00004063, 0x0000707f⟩ (by decide) rfl ((masked3_iff _ rfl).2
    (by rw [encode, encB_eq_encR]; exact ⟨fieldOpcode_encR .., fieldFunct3_encR ..⟩))
theorem bge : Statement (.bge rs1 rs2 imm) := of_row ⟨.bge, .b, 0x00005063, 0x0000707f⟩ (by decide) rfl ((masked3_iff _ rfl).2
    (by rw [encode, encB_eq_encR]; exact ⟨fieldOpcode_encR .., fieldFunct3_encR ..⟩))
theorem bltu : Statement (.bltu rs1 rs2 imm) := of_row ⟨.bltu, .b, 0x00006063, 0x0000707f⟩ (by decide) rfl ((masked3_iff _ rfl).2
    (by rw [encode, encB_eq_encR]; exact ⟨fieldOpcode_encR .., fieldFunct3_encR ..⟩))
theorem bgeu : Statement (.bgeu rs1 rs2 imm) := of_row ⟨.bgeu, .b, 0x00007063, 0x0000707f⟩ (by decide) rfl ((masked3_iff _ rfl).2
    (by rw [encode, encB_eq_encR]; exact ⟨fieldOpcode_encR .., fieldFunct3_encR ..⟩))
theorem lb : Statement (.lb rd rs1 imm) := of_row ⟨.lb, .i, 0x00000003, 0x0000707f⟩ (by decide) rfl ((masked3_iff _ rfl).2
    (by rw [encode, encI_eq_encR]; exact ⟨fieldOpcode_encR .., fieldFunct3_encR ..⟩))
theorem lh : Statement (.lh rd rs1 imm) := of_row ⟨.lh, .i, 0x00001003, 0x0000707f⟩ (by decide) rfl ((masked3_iff _ rfl).2
    (by rw [encode, encI_eq_encR]; exact ⟨fieldOpcode_encR .., fieldFunct3_encR ..⟩))
theorem lw : Statement (.lw rd rs1 imm) := of_row ⟨.lw, .i, 0x00002003, 0x0000707f⟩ (by decide) rfl ((masked3_iff _ rfl).2
    (by rw [encode, encI_eq_encR]; exact ⟨fieldOpcode_encR .., fieldFunct3_encR ..⟩))
theorem lbu : Statement (.lbu rd rs1 imm) := of_row ⟨.lbu, .i, 0x00004003, 0x0000707f⟩ (by decide) rfl ((masked3_iff _ rfl).2
    (by rw [encode, encI_eq_encR]; exact ⟨fieldOpcode_encR .., fieldFunct3_encR ..⟩))
theorem lhu : Statement (.lhu rd rs1 imm) := of_row ⟨.lhu, .i, 0x00005003, 0x0000707f⟩ (by decide) rfl ((masked3_iff _ rfl).2
    (by rw [encode, encI_eq_encR]; exact ⟨fieldOpcode_encR .., fieldFunct3_encR ..⟩))
theorem sb : Statement (.sb rs1 rs2 imm) := of_row ⟨.sb, .s, 0x00000023, 0x0000707f⟩ (by decide) rfl ((masked3_iff _ rfl).2
    (by rw [encode, encS_eq_encR]; exact ⟨fieldOpcode_encR .., fieldFunct3_encR ..⟩))
theorem sh : Statement (.sh rs1 rs2 imm) := of_row ⟨.sh, .s, 0x00001023, 0x0000707f⟩ (by decide) rfl ((masked3_iff _ rfl).2
    (by rw [encode, encS_eq_encR]; exact ⟨fieldOpcode_encR .., fieldFunct3_encR ..⟩))
theorem sw : Statement (.sw rs1 rs2 imm) := of_row ⟨.sw, .s, 0x00002023, 0x0000707f⟩ (by decide) rfl ((masked3_iff _ rfl).2
    (by rw [encode, encS_eq_encR]; exact ⟨fieldOpcode_encR .., fieldFunct3_encR ..⟩))
theorem addi : Statement (.addi rd rs1 imm) := of_row ⟨.addi, .i, 0x00000013, 0x0000707f⟩ (by decide) rfl ((masked3_iff _ rfl).2
    (by rw [encode, encI_eq_encR]; exact ⟨fieldOpcode_encR .., fieldFunct3_encR ..⟩))
theorem slti : Statement (.slti rd rs1 imm) := of_row ⟨.slti, .i, 0x00002013, 0x0000707f⟩ (by decide) rfl ((masked3_iff _ rfl).2
    (by rw [encode, encI_eq_encR]; exact ⟨fieldOpcode_encR .., fieldFunct3_encR ..⟩))
theorem sltiu : Statement (.sltiu rd rs1 imm) := of_row ⟨.sltiu, .i, 0x00003013, 0x0000707f⟩ (by decide) rfl ((masked3_iff _ rfl).2
    (by rw [encode, encI_eq_encR]; exact ⟨fieldOpcode_encR .., fieldFunct3_encR ..⟩))
theorem xori : Statement (.xori rd rs1 imm) := of_row ⟨.xori, .i, 0x00004013, 0x0000707f⟩ (by decide) rfl ((masked3_iff _ rfl).2
    (by rw [encode, encI_eq_encR]; exact ⟨fieldOpcode_encR .., fieldFunct3_encR ..⟩))
theorem ori : Statement (.ori rd rs1 imm) := of_row ⟨.ori, .i, 0x00006013, 0x0000707f⟩ (by decide) rfl ((masked3_iff _ rfl).2
    (by rw [encode, encI_eq_encR]; exact ⟨fieldOpcode_encR .., fieldFunct3_encR ..⟩))
theorem andi : Statement (.andi rd rs1 imm) := of_row ⟨.andi, .i, 0x00007013, 0x0000707f⟩ (by decide) rfl ((masked3_iff _ rfl).2
    (by rw [encode, encI_eq_encR]; exact ⟨fieldOpcode_encR .., fieldFunct3_encR ..⟩))
theorem slli : Statement (.slli rd rs1 imm) := of_row ⟨.slli, .shift, 0x00001013, 0xfe00707f⟩ (by decide) rfl ((maskedR_iff _ rfl).2 ⟨fieldOpcode_encR .., fieldFunct3_encR .., fieldFunct7_encR ..⟩)
theorem srli : Statement (.srli rd rs1 imm) := of_row ⟨.srli, .shift, 0x00005013, 0xfe00707f⟩ (by decide) rfl ((maskedR_iff _ rfl).2 ⟨fieldOpcode_encR .., fieldFunct3_encR .., fieldFunct7_encR ..⟩)
theorem srai : Statement (.srai rd rs1 imm) := of_row ⟨.srai, .shift, 0x40005013, 0xfe00707f⟩ (by decide) rfl ((maskedR_iff _ rfl).2 ⟨fieldOpcode_encR .., fieldFunct3_encR .., fieldFunct7_encR ..⟩)
theorem add : Statement (.add rd rs1 rs2) := of_row ⟨.add, .r, 0x00000033, 0xfe00707f⟩ (by decide) rfl ((maskedR_iff _ rfl).2 ⟨fieldOpcode_encR .., fieldFunct3_encR .., fieldFunct7_encR ..⟩)
theorem sub : Statement (.sub rd rs1 rs2) := of_row ⟨.sub, .r, 0x40000033, 0xfe00707f⟩ (by decide) rfl ((maskedR_iff _ rfl).2 ⟨fieldOpcode_encR .., fieldFunct3_encR .., fieldFunct7_encR ..⟩)
theorem sll : Statement (.sll rd rs1 rs2) := of_row ⟨.sll, .r, 0x00001033, 0xfe00707f⟩ (by decide) rfl ((maskedR_iff _ rfl).2 ⟨fieldOpcode_encR .., fieldFunct3_encR .., fieldFunct7_encR ..⟩)
theorem slt : Statement (.slt rd rs1 rs2) := of_row ⟨.slt, .r, 0x00002033, 0xfe00707f⟩ (by decide) rfl ((maskedR_iff _ rfl).2 ⟨fieldOpcode_encR .., fieldFunct3_encR .., fieldFunct7_encR ..⟩)
theorem sltu : Statement (.sltu rd rs1 rs2) := of_row ⟨.sltu, .r, 0x00003033, 0xfe00707f⟩ (by decide) rfl ((maskedR_iff _ rfl).2 ⟨fieldOpcode_encR .., fieldFunct3_encR .., fieldFunct7_encR ..⟩)
theorem xor : Statement (.xor rd rs1 rs2) := of_row ⟨.xor, .r, 0x00004033, 0xfe00707f⟩ (by decide) rfl ((maskedR_iff _ rfl).2 ⟨fieldOpcode_encR .., fieldFunct3_encR .., fieldFunct7_encR ..⟩)
theorem srl : Statement (.srl rd rs1 rs2) := of_row ⟨.srl, .r, 0x00005033, 0xfe00707f⟩ (by decide) rfl ((maskedR_iff _ rfl).2 ⟨fieldOpcode_encR .., fieldFunct3_encR .., fieldFunct7_encR ..⟩)
theorem sra : Statement (.sra rd rs1 rs2) := of_row ⟨.sra, .r, 0x40005033, 0xfe00707f⟩ (by decide) rfl ((maskedR_iff _ rfl).2 ⟨fieldOpcode_encR .., fieldFunct3_encR .., fieldFunct7_encR ..⟩)
theorem or : Statement (.or rd rs1 rs2) := of_row ⟨.or, .r, 0x00006033, 0xfe00707f⟩ (by decide) rfl ((maskedR_iff _ rfl).2 ⟨fieldOpcode_encR .., fieldFunct3_encR .., fieldFunct7_encR ..⟩)
theorem and : Statement (.and rd rs1 rs2) := of_row ⟨.and, .r, 0x00007033, 0xfe00707f⟩ (by decide) rfl ((maskedR_iff _ rfl).2 ⟨fieldOpcode_encR .., fieldFunct3_encR .., fieldFunct7_encR ..⟩)
theorem fence : Statement .fence := of_row ⟨.fence, .carrier, 0x0000000f, 0x0000707f⟩ (by decide) rfl rfl
theorem ecall : Statement .ecall := of_row ⟨.ecall, .carrier, 0x00000073, 0xffffffff⟩ (by decide) rfl rfl
theorem ebreak : Statement .ebreak := of_row ⟨.ebreak, .carrier, 0x00100073, 0xffffffff⟩ (by decide) rfl rfl

end Laws.EncodingSelectsRow

end Sys2Proof
end

