-- ==== Sys2Proof/Tests/Slice0.lean ====
section
/-! SUPPORT. Tests: ill-formed terms refused, words written out from the spec's encodings, one step on the
small harness of 95_test_vectors.md part 2, and a witness for the hypotheses of every statement. Every
expected value is from the spec's vectors or computed from the rule by hand. -/

namespace Sys2Proof.Tests

open Sys2Proof.Machine Sys2Proof.Claims

/-! ### Ill-formed instructions are refused -/

theorem test_wf_imm12_too_large : (Instr.addi 1 2 2048).wf = false ∧ (Instr.addi 1 2 2047).wf = true := by decide
theorem test_wf_imm12_too_small : (Instr.sw 1 2 (-2049)).wf = false ∧ (Instr.sw 1 2 (-2048)).wf = true := by decide
theorem test_wf_branch_odd : (Instr.beq 1 2 3).wf = false ∧ (Instr.beq 1 2 2).wf = true := by decide
theorem test_wf_branch_range : (Instr.bltu 1 2 4096).wf = false ∧ (Instr.bltu 1 2 4094).wf = true ∧
    (Instr.bltu 1 2 (-4098)).wf = false ∧ (Instr.bltu 1 2 (-4096)).wf = true := by decide
theorem test_wf_jal_odd : (Instr.jal 1 1).wf = false := by decide
theorem test_wf_jal_range : (Instr.jal 1 1048576).wf = false ∧ (Instr.jal 1 1048574).wf = true ∧
    (Instr.jal 1 (-1048578)).wf = false ∧ (Instr.jal 1 (-1048576)).wf = true := by decide
theorem test_wf_upper_low_bits : (Instr.lui 1 1).wf = false ∧ (Instr.lui 1 0xfffff000).wf = true := by decide
theorem test_wf_shamt : (Instr.srai 1 2 32).wf = false ∧ (Instr.srai 1 2 31).wf = true := by decide

/-! ### Words written out from the encodings (30_encoding.md R82 to R87, R95) -/

/-- R format: funct7, rs2, rs1, funct3, rd, opcode. -/
theorem test_decode_register :
    decode (0b0000000#7 ++ 0b00010#5 ++ 0b00001#5 ++ 0b000#3 ++ 0b00011#5 ++ 0b0110011#7) = .ok (.add 3 1 2) ∧
    decode (0b0100000#7 ++ 0b00010#5 ++ 0b00001#5 ++ 0b000#3 ++ 0b00011#5 ++ 0b0110011#7) = .ok (.sub 3 1 2) ∧
    decode (0b0000000#7 ++ 0b00010#5 ++ 0b00001#5 ++ 0b001#3 ++ 0b00011#5 ++ 0b0110011#7) = .ok (.sll 3 1 2) ∧
    decode (0b0000000#7 ++ 0b00010#5 ++ 0b00001#5 ++ 0b010#3 ++ 0b00011#5 ++ 0b0110011#7) = .ok (.slt 3 1 2) ∧
    decode (0b0000000#7 ++ 0b00010#5 ++ 0b00001#5 ++ 0b011#3 ++ 0b00011#5 ++ 0b0110011#7) = .ok (.sltu 3 1 2) ∧
    decode (0b0000000#7 ++ 0b00010#5 ++ 0b00001#5 ++ 0b100#3 ++ 0b00011#5 ++ 0b0110011#7) = .ok (.xor 3 1 2) ∧
    decode (0b0000000#7 ++ 0b00010#5 ++ 0b00001#5 ++ 0b101#3 ++ 0b00011#5 ++ 0b0110011#7) = .ok (.srl 3 1 2) ∧
    decode (0b0100000#7 ++ 0b11111#5 ++ 0b11111#5 ++ 0b101#3 ++ 0b11111#5 ++ 0b0110011#7) = .ok (.sra 31 31 31) ∧
    decode (0b0000000#7 ++ 0b00010#5 ++ 0b00001#5 ++ 0b110#3 ++ 0b00011#5 ++ 0b0110011#7) = .ok (.or 3 1 2) ∧
    decode (0b0000000#7 ++ 0b00010#5 ++ 0b00001#5 ++ 0b111#3 ++ 0b00011#5 ++ 0b0110011#7) = .ok (.and 3 1 2) := by
  decide

/-- I format: imm[11:0], rs1, funct3, rd, opcode. -/
theorem test_decode_immediate :
    decode (0b111111111111#12 ++ 0b11111#5 ++ 0b000#3 ++ 0b11111#5 ++ 0b0010011#7) = .ok (.addi 31 31 (-1)) ∧
    decode (0b100000000000#12 ++ 0b00010#5 ++ 0b010#3 ++ 0b00001#5 ++ 0b0010011#7) = .ok (.slti 1 2 (-2048)) ∧
    decode (0b011111111111#12 ++ 0b00010#5 ++ 0b011#3 ++ 0b00001#5 ++ 0b0010011#7) = .ok (.sltiu 1 2 2047) ∧
    decode (0b000000000001#12 ++ 0b00010#5 ++ 0b100#3 ++ 0b00001#5 ++ 0b0010011#7) = .ok (.xori 1 2 1) ∧
    decode (0b010101010101#12 ++ 0b00001#5 ++ 0b110#3 ++ 0b00010#5 ++ 0b0010011#7) = .ok (.ori 2 1 1365) ∧
    decode (0b111111110000#12 ++ 0b00001#5 ++ 0b111#3 ++ 0b00010#5 ++ 0b0010011#7) = .ok (.andi 2 1 (-16)) ∧
    decode (0b000000000100#12 ++ 0b00101#5 ++ 0b000#3 ++ 0b00001#5 ++ 0b1100111#7) = .ok (.jalr 1 5 4) := by
  decide

/-- I format of the loads. -/
theorem test_decode_load :
    decode (0b111111111111#12 ++ 0b00001#5 ++ 0b000#3 ++ 0b00010#5 ++ 0b0000011#7) = .ok (.lb 2 1 (-1)) ∧
    decode (0b000000000011#12 ++ 0b00001#5 ++ 0b001#3 ++ 0b00010#5 ++ 0b0000011#7) = .ok (.lh 2 1 3) ∧
    decode (0b100000000000#12 ++ 0b00001#5 ++ 0b010#3 ++ 0b00010#5 ++ 0b0000011#7) = .ok (.lw 2 1 (-2048)) ∧
    decode (0b000000000000#12 ++ 0b00001#5 ++ 0b100#3 ++ 0b00010#5 ++ 0b0000011#7) = .ok (.lbu 2 1 0) ∧
    decode (0b000000000001#12 ++ 0b00001#5 ++ 0b101#3 ++ 0b00010#5 ++ 0b0000011#7) = .ok (.lhu 2 1 1) := by
  decide

/-- Shift immediates: funct7, shamt, rs1, funct3, rd, opcode. -/
theorem test_decode_shift_immediate :
    decode (0b0000000#7 ++ 0b11111#5 ++ 0b00010#5 ++ 0b001#3 ++ 0b00001#5 ++ 0b0010011#7) = .ok (.slli 1 2 31) ∧
    decode (0b0000000#7 ++ 0b00000#5 ++ 0b00010#5 ++ 0b101#3 ++ 0b00001#5 ++ 0b0010011#7) = .ok (.srli 1 2 0) ∧
    decode (0b0100000#7 ++ 0b11111#5 ++ 0b00010#5 ++ 0b101#3 ++ 0b00001#5 ++ 0b0010011#7) = .ok (.srai 1 2 31) := by
  decide

/-- S format: imm[11:5], rs2, rs1, funct3, imm[4:0], opcode. -/
theorem test_decode_store :
    decode (0b0000000#7 ++ 0b00010#5 ++ 0b00001#5 ++ 0b000#3 ++ 0b10101#5 ++ 0b0100011#7) = .ok (.sb 1 2 21) ∧
    decode (0b0111111#7 ++ 0b00011#5 ++ 0b00010#5 ++ 0b001#3 ++ 0b11111#5 ++ 0b0100011#7) = .ok (.sh 2 3 2047) ∧
    decode (0b1000000#7 ++ 0b00011#5 ++ 0b00010#5 ++ 0b010#3 ++ 0b00000#5 ++ 0b0100011#7) = .ok (.sw 2 3 (-2048)) := by
  decide

/-- B format: imm[12], imm[10:5], rs2, rs1, funct3, imm[4:1], imm[11], opcode. -/
theorem test_decode_branch :
    decode (0b0#1 ++ 0b000000#6 ++ 0b00010#5 ++ 0b00001#5 ++ 0b000#3 ++ 0b0000#4 ++ 0b1#1 ++ 0b1100011#7) = .ok (.beq 1 2 2048) ∧
    decode (0b0#1 ++ 0b000000#6 ++ 0b00010#5 ++ 0b00001#5 ++ 0b001#3 ++ 0b0001#4 ++ 0b0#1 ++ 0b1100011#7) = .ok (.bne 1 2 2) ∧
    decode (0b1#1 ++ 0b000000#6 ++ 0b00010#5 ++ 0b00001#5 ++ 0b100#3 ++ 0b0000#4 ++ 0b0#1 ++ 0b1100011#7) = .ok (.blt 1 2 (-4096)) ∧
    decode (0b0#1 ++ 0b111111#6 ++ 0b00010#5 ++ 0b00001#5 ++ 0b101#3 ++ 0b1111#4 ++ 0b1#1 ++ 0b1100011#7) = .ok (.bge 1 2 4094) ∧
    decode (0b0#1 ++ 0b000000#6 ++ 0b00010#5 ++ 0b00001#5 ++ 0b110#3 ++ 0b1000#4 ++ 0b0#1 ++ 0b1100011#7) = .ok (.bltu 1 2 16) ∧
    decode (0b1#1 ++ 0b111111#6 ++ 0b00001#5 ++ 0b00000#5 ++ 0b111#3 ++ 0b1111#4 ++ 0b1#1 ++ 0b1100011#7) = .ok (.bgeu 0 1 (-2)) := by
  decide

/-- U format: imm[31:12], rd, opcode. J format: imm[20], imm[10:1], imm[11], imm[19:12], rd, opcode. -/
theorem test_decode_upper_and_jal :
    decode (0b00000000000000000001#20 ++ 0b00001#5 ++ 0b0110111#7) = .ok (.lui 1 0x00001000) ∧
    decode (0b10000000000000000000#20 ++ 0b11111#5 ++ 0b0010111#7) = .ok (.auipc 31 0x80000000) ∧
    decode (0b0#1 ++ 0b0000000000#10 ++ 0b1#1 ++ 0b00000000#8 ++ 0b00000#5 ++ 0b1101111#7) = .ok (.jal 0 2048) ∧
    decode (0b0#1 ++ 0b0000000000#10 ++ 0b0#1 ++ 0b00000001#8 ++ 0b00000#5 ++ 0b1101111#7) = .ok (.jal 0 4096) ∧
    decode (0b1#1 ++ 0b1111111100#10 ++ 0b1#1 ++ 0b11111111#8 ++ 0b00000#5 ++ 0b1101111#7) = .ok (.jal 0 (-8)) := by
  decide

/-- FENCE with any other bits, ECALL, EBREAK. -/
theorem test_decode_system :
    decode (0b111111111111#12 ++ 0b11111#5 ++ 0b000#3 ++ 0b11111#5 ++ 0b0001111#7) = .ok .fence ∧
    decode (0b000000000000#12 ++ 0b00000#5 ++ 0b000#3 ++ 0b00000#5 ++ 0b1110011#7) = .ok .ecall ∧
    decode (0b000000000001#12 ++ 0b00000#5 ++ 0b000#3 ++ 0b00000#5 ++ 0b1110011#7) = .ok .ebreak := by
  decide

/-- The illegal words V36 to V50 of 95_test_vectors.md. -/
theorem test_illegal_words_first : ([0x00000000, 0xffffffff, 0x00000001, 0x00008082, 0x000000f3, 0x00200073,
    0x30200073, 0x10500073, 0x00001073, 0xc0002573, 0x0000100f, 0x02000033, 0x40001033, 0x20000033, 0x02001013] : List Word).all
    (fun w => decide (decode w = .error (.illegalInstruction w))) = true := by
  decide +kernel

/-- The illegal words V51 to V66 of 95_test_vectors.md. -/
theorem test_illegal_words_second : ([0x40001013, 0x80005013, 0x00003003, 0x00006003, 0x00007003, 0x00003023,
    0x00004023, 0x00002063, 0x00003063, 0x00001067, 0x0000001b, 0x0000003b, 0x0000002f, 0x00000007, 0x0000000b, 0x00000053] : List Word).all
    (fun w => decide (decode w = .error (.illegalInstruction w))) = true := by
  decide +kernel

/-- The word `encode` gives FENCE is one of its words (46_system.md R211). -/
theorem test_encode_fence : decode (encode .fence) = .ok .fence := by decide

/-- The words of `spec/opcode_table.json` are read with their bits above `nbits` zero. -/
theorem test_decode_table_word : decodeTableWord 32 0x402081b3 = some (.sub 3 1 2) ∧ decodeTableWord 32 0 = none := by
  decide

/-! ### One step (95_test_vectors.md, part 2) -/

/-- The harness of 95_test_vectors.md part 2: eight instructions, the word under test at address 8. -/
def harness (w : Word) (rs : List (RegIdx × Word)) (m : List Host.Cell) : State where
  regs     := rs.foldl (fun r p => writeRegs r p.1 p.2) (Vector.replicate 31 0)
  pc       := 8
  status   := .active
  exitCode := none
  fault    := none
  stdout   := []
  mem      := m
  params   := { Params.vectorDefaults with prog := [0x13, 0x13, w, 0x13, 0x13, 0x13, 0x13, 0x13] }

/-- Does one step give a next state with property `p`? -/
def after (s : State) (p : State → Bool) : Bool :=
  match step s with
  | .next t => p t
  | .fault _ => false
  | .refused _ => false

/-- V67: `add x3, x1, x2`. -/
theorem test_add_v67 : after (harness 0x002081b3 [(1, 0x7fffffff), (2, 0x00000001)] []) fun t =>
    t.readReg 3 = 0x80000000 := by decide
/-- V70: `add x1, x1, x1`. -/
theorem test_add_v70 : after (harness 0x001080b3 [(1, 0x40000001)] []) fun t =>
    t.readReg 1 = 0x80000002 := by decide
/-- V72: `sub x3, x1, x2`. -/
theorem test_sub_v72 : after (harness 0x402081b3 [(1, 0x00000000), (2, 0x00000001)] []) fun t =>
    t.readReg 3 = 0xffffffff := by decide
/-- V74: `sub x3, x1, x1`. -/
theorem test_sub_v74 : after (harness 0x401081b3 [(1, 0xcafef00d), (3, 0x00000055)] []) fun t =>
    t.readReg 3 = 0x00000000 := by decide
/-- V76: `and x3, x1, x2`. -/
theorem test_and_v76 : after (harness 0x0020f1b3 [(1, 0xff00ff00), (2, 0x0ff00ff0)] []) fun t =>
    t.readReg 3 = 0x0f000f00 := by decide
/-- V77: `or x3, x1, x2`. -/
theorem test_or_v77 : after (harness 0x0020e1b3 [(1, 0xff00ff00), (2, 0x0ff00ff0)] []) fun t =>
    t.readReg 3 = 0xfff0fff0 := by decide
/-- V78: `xor x3, x1, x2`. -/
theorem test_xor_v78 : after (harness 0x0020c1b3 [(1, 0xff00ff00), (2, 0x0ff00ff0)] []) fun t =>
    t.readReg 3 = 0xf0f0f0f0 := by decide
/-- V80: `addi x2, x1, -2048`. -/
theorem test_addi_v80 : after (harness 0x80008113 [(1, 0x00000000)] []) fun t =>
    t.readReg 2 = 0xfffff800 := by decide
/-- V82: `addi x2, x1, 1`. -/
theorem test_addi_v82 : after (harness 0x00108113 [(1, 0x7fffffff)] []) fun t =>
    t.readReg 2 = 0x80000000 := by decide
/-- V84: `andi x2, x1, -16`. -/
theorem test_andi_v84 : after (harness 0xff00f113 [(1, 0x12345678)] []) fun t =>
    t.readReg 2 = 0x12345670 := by decide
/-- V86: `ori x2, x1, -2048`. -/
theorem test_ori_v86 : after (harness 0x8000e113 [(1, 0x00000001)] []) fun t =>
    t.readReg 2 = 0xfffff801 := by decide
/-- V88: `xori x2, x1, -1`. -/
theorem test_xori_v88 : after (harness 0xfff0c113 [(1, 0x0f0f0f0f)] []) fun t =>
    t.readReg 2 = 0xf0f0f0f0 := by decide
/-- V90: `lui x5, 0x12345`. -/
theorem test_lui_v90 : after (harness 0x123452b7 [(5, 0xffffffff)] []) fun t =>
    t.readReg 5 = 0x12345000 := by decide
/-- V95: `auipc x5, 0xfffff`. -/
theorem test_auipc_v95 : after (harness 0xfffff297 [] []) fun t =>
    t.readReg 5 = 0xfffff008 := by decide
/-- V96: `sll x3, x1, x2`. -/
theorem test_sll_v96 : after (harness 0x002091b3 [(1, 0x00000001), (2, 0x0000001f)] []) fun t =>
    t.readReg 3 = 0x80000000 := by decide
/-- V99: `sll x3, x1, x2`. -/
theorem test_sll_v99 : after (harness 0x002091b3 [(1, 0x0000ffff), (2, 0xffffffe1)] []) fun t =>
    t.readReg 3 = 0x0001fffe := by decide
/-- V100: `srl x3, x1, x2`. -/
theorem test_srl_v100 : after (harness 0x0020d1b3 [(1, 0x80000000), (2, 0x0000001f)] []) fun t =>
    t.readReg 3 = 0x00000001 := by decide
/-- V101: `srl x3, x1, x2`. -/
theorem test_srl_v101 : after (harness 0x0020d1b3 [(1, 0x80000000), (2, 0x0000003f)] []) fun t =>
    t.readReg 3 = 0x00000001 := by decide
/-- V103: `sra x3, x1, x2`. -/
theorem test_sra_v103 : after (harness 0x4020d1b3 [(1, 0x80000000), (2, 0x0000001f)] []) fun t =>
    t.readReg 3 = 0xffffffff := by decide
/-- V106: `sra x3, x1, x2`. -/
theorem test_sra_v106 : after (harness 0x4020d1b3 [(1, 0xfffffffe), (2, 0x00000021)] []) fun t =>
    t.readReg 3 = 0xffffffff := by decide
/-- V107: `slli x2, x1, 31`. -/
theorem test_slli_v107 : after (harness 0x01f09113 [(1, 0x00000003)] []) fun t =>
    t.readReg 2 = 0x80000000 := by decide
/-- V109: `srli x2, x1, 4`. -/
theorem test_srli_v109 : after (harness 0x0040d113 [(1, 0x89abcdef)] []) fun t =>
    t.readReg 2 = 0x089abcde := by decide
/-- V111: `srai x2, x1, 4`. -/
theorem test_srai_v111 : after (harness 0x4040d113 [(1, 0x89abcdef)] []) fun t =>
    t.readReg 2 = 0xf89abcde := by decide
/-- V114: `slt x3, x1, x2`. -/
theorem test_slt_v114 : after (harness 0x0020a1b3 [(1, 0xffffffff), (2, 0x00000001)] []) fun t =>
    t.readReg 3 = 0x00000001 := by decide
/-- V118: `slt x3, x1, x2`. -/
theorem test_slt_v118 : after (harness 0x0020a1b3 [(1, 0x00000005), (2, 0x00000005), (3, 0x00000009)] []) fun t =>
    t.readReg 3 = 0x00000000 := by decide
/-- V115: `sltu x3, x1, x2`. -/
theorem test_sltu_v115 : after (harness 0x0020b1b3 [(1, 0xffffffff), (2, 0x00000001), (3, 0x00000009)] []) fun t =>
    t.readReg 3 = 0x00000000 := by decide
/-- V117: `sltu x3, x1, x2`. -/
theorem test_sltu_v117 : after (harness 0x0020b1b3 [(1, 0x7fffffff), (2, 0x80000000)] []) fun t =>
    t.readReg 3 = 0x00000001 := by decide
/-- V121: `slti x2, x1, -1`. -/
theorem test_slti_v121 : after (harness 0xfff0a113 [(1, 0x80000000)] []) fun t =>
    t.readReg 2 = 0x00000001 := by decide
/-- V122: `slti x2, x1, -1`. -/
theorem test_slti_v122 : after (harness 0xfff0a113 [(1, 0xffffffff), (2, 0x00000009)] []) fun t =>
    t.readReg 2 = 0x00000000 := by decide
/-- V124: `sltiu x2, x1, -1`. -/
theorem test_sltiu_v124 : after (harness 0xfff0b113 [(1, 0xfffffffe)] []) fun t =>
    t.readReg 2 = 0x00000001 := by decide
/-- V127: `sltiu x2, x1, 1`. -/
theorem test_sltiu_v127 : after (harness 0x0010b113 [(1, 0x80000000), (2, 0x00000009)] []) fun t =>
    t.readReg 2 = 0x00000000 := by decide
/-- V141: `beq x0, x0, -8`. -/
theorem test_beq_v141 : after (harness 0xfe000ce3 [] []) fun t =>
    t.pc = 0x00000000 := by decide
/-- V145: `beq x0, x0, 6`. -/
theorem test_beq_faults_v145 : after (harness 0x00000363 [] []) fun t =>
    t.fault = some ⟨.misalignedTarget, 0x0000000e⟩ ∧ t.status = .haltErr ∧ t.pc = 8 := by decide
/-- V131: `bne x1, x2, 16`. -/
theorem test_bne_v131 : after (harness 0x00209863 [(1, 0x00000005), (2, 0x00000006)] []) fun t =>
    t.pc = 0x00000018 := by decide
/-- V3: `bne x1, x2, 6`. -/
theorem test_bne_v3 : after (harness 0x00209363 [(1, 0x00000007), (2, 0x00000007)] []) fun t =>
    t.pc = 0x0000000c := by decide
/-- V132: `blt x1, x2, 16`. -/
theorem test_blt_v132 : after (harness 0x0020c863 [(1, 0xffffffff), (2, 0x00000001)] []) fun t =>
    t.pc = 0x00000018 := by decide
/-- V138: `blt x1, x2, 16`. -/
theorem test_blt_v138 : after (harness 0x0020c863 [(1, 0x00000007), (2, 0x00000007)] []) fun t =>
    t.pc = 0x0000000c := by decide
/-- V134: `bge x1, x2, 16`. -/
theorem test_bge_v134 : after (harness 0x0020d863 [(1, 0xffffffff), (2, 0x00000001)] []) fun t =>
    t.pc = 0x0000000c := by decide
/-- V136: `bge x1, x2, 16`. -/
theorem test_bge_v136 : after (harness 0x0020d863 [(1, 0x00000007), (2, 0x00000007)] []) fun t =>
    t.pc = 0x00000018 := by decide
/-- V133: `bltu x1, x2, 16`. -/
theorem test_bltu_v133 : after (harness 0x0020e863 [(1, 0xffffffff), (2, 0x00000001)] []) fun t =>
    t.pc = 0x0000000c := by decide
/-- V139: `bltu x1, x2, 16`. -/
theorem test_bltu_v139 : after (harness 0x0020e863 [(1, 0x00000000), (2, 0x00000001)] []) fun t =>
    t.pc = 0x00000018 := by decide
/-- V135: `bgeu x1, x2, 16`. -/
theorem test_bgeu_v135 : after (harness 0x0020f863 [(1, 0xffffffff), (2, 0x00000001)] []) fun t =>
    t.pc = 0x00000018 := by decide
/-- V148: `bgeu x0, x1, -2`. -/
theorem test_bgeu_faults_v148 : after (harness 0xfe107fe3 [(1, 0x00000000)] []) fun t =>
    t.fault = some ⟨.misalignedTarget, 0x00000006⟩ ∧ t.status = .haltErr ∧ t.pc = 8 := by decide
/-- V149: `jal x1, 16`. -/
theorem test_jal_v149 : after (harness 0x010000ef [] []) fun t =>
    t.readReg 1 = 0x0000000c ∧ t.pc = 0x00000018 := by decide
/-- V153: `jal x1, 2`. -/
theorem test_jal_faults_v153 : after (harness 0x002000ef [(1, 0x00000055)] []) fun t =>
    t.fault = some ⟨.misalignedTarget, 0x0000000a⟩ ∧ t.status = .haltErr ∧ t.pc = 8 ∧ t.readReg 1 = 0x00000055 := by decide
/-- V157: `jalr x1, 5(x5)`. -/
theorem test_jalr_v157 : after (harness 0x005280e7 [(5, 0x0000000c)] []) fun t =>
    t.readReg 1 = 0x0000000c ∧ t.pc = 0x00000010 := by decide
/-- V161: `jalr x5, 0(x5)`. -/
theorem test_jalr_v161 : after (harness 0x000282e7 [(5, 0x00000018)] []) fun t =>
    t.readReg 5 = 0x0000000c ∧ t.pc = 0x00000018 := by decide
/-- V166: `lb x2, 0(x1)`. -/
theorem test_lb_v166 : after (harness 0x00008103 [(1, 0x00000010)] [(16, 0x80), (17, 0x91), (18, 0xa2), (19, 0x7f), (20, 0x01), (21, 0xff)]) fun t =>
    t.readReg 2 = 0xffffff80 := by decide
/-- V185: `lb x2, -1(x0)`. -/
theorem test_lb_faults_v185 : after (harness 0xfff00103 [(2, 0x00000055)] []) fun t =>
    t.fault = some ⟨.memoryFault, 0xffffffff⟩ ∧ t.status = .haltErr ∧ t.pc = 8 ∧ t.readReg 2 = 0x00000055 := by decide
/-- V171: `lh x2, 3(x1)`. -/
theorem test_lh_v171 : after (harness 0x00309103 [(1, 0x00000010)] [(16, 0x80), (17, 0x91), (18, 0xa2), (19, 0x7f), (20, 0x01), (21, 0xff)]) fun t =>
    t.readReg 2 = 0x0000017f := by decide
/-- V182: `lh x2, 0(x1)`. -/
theorem test_lh_faults_v182 : after (harness 0x00009103 [(1, 0x00000fff), (2, 0x00000055)] []) fun t =>
    t.fault = some ⟨.memoryFault, 0x00000fff⟩ ∧ t.status = .haltErr ∧ t.pc = 8 ∧ t.readReg 2 = 0x00000055 := by decide
/-- V179: `lw x2, 1(x1)`. -/
theorem test_lw_v179 : after (harness 0x0010a103 [(1, 0xffffffff)] [(0, 0x11), (1, 0x22), (2, 0x33), (3, 0x44)]) fun t =>
    t.readReg 2 = 0x44332211 := by decide
/-- V181: `lw x2, 0(x1)`. -/
theorem test_lw_faults_v181 : after (harness 0x0000a103 [(1, 0x00000ffd), (2, 0x00000055)] []) fun t =>
    t.fault = some ⟨.memoryFault, 0x00000ffd⟩ ∧ t.status = .haltErr ∧ t.pc = 8 ∧ t.readReg 2 = 0x00000055 := by decide
/-- V167: `lbu x2, 0(x1)`. -/
theorem test_lbu_v167 : after (harness 0x0000c103 [(1, 0x00000010)] [(16, 0x80), (17, 0x91), (18, 0xa2), (19, 0x7f), (20, 0x01), (21, 0xff)]) fun t =>
    t.readReg 2 = 0x00000080 := by decide
/-- V184: `lbu x2, 0(x1)`. -/
theorem test_lbu_faults_v184 : after (harness 0x0000c103 [(1, 0x00001000), (2, 0x00000055)] []) fun t =>
    t.fault = some ⟨.memoryFault, 0x00001000⟩ ∧ t.status = .haltErr ∧ t.pc = 8 ∧ t.readReg 2 = 0x00000055 := by decide
/-- V172: `lhu x2, 1(x1)`. -/
theorem test_lhu_v172 : after (harness 0x0010d103 [(1, 0x00000010)] [(16, 0x80), (17, 0x91), (18, 0xa2), (19, 0x7f), (20, 0x01), (21, 0xff)]) fun t =>
    t.readReg 2 = 0x0000a291 := by decide
/-- V190: `sb x2, 3(x1)`. -/
theorem test_sb_v190 : after (harness 0x002081a3 [(1, 0x00000020), (2, 0xffffff80)] []) fun t =>
    t.byte 35 = 0x80 := by decide
/-- V200: `sb x2, 0(x1)`. -/
theorem test_sb_faults_v200 : after (harness 0x00208023 [(1, 0x00001000), (2, 0x00000001)] []) fun t =>
    t.fault = some ⟨.memoryFault, 0x00001000⟩ ∧ t.status = .haltErr ∧ t.pc = 8 ∧ t.mem = [] := by decide
/-- V191: `sh x2, 1(x1)`. -/
theorem test_sh_v191 : after (harness 0x002090a3 [(1, 0x00000020), (2, 0x0000beef)] []) fun t =>
    t.byte 33 = 0xef ∧ t.byte 34 = 0xbe := by decide
/-- V199: `sh x2, 0(x1)`. -/
theorem test_sh_faults_v199 : after (harness 0x00209023 [(1, 0x00000fff), (2, 0x0000dead)] []) fun t =>
    t.fault = some ⟨.memoryFault, 0x00000fff⟩ ∧ t.status = .haltErr ∧ t.pc = 8 ∧ t.mem = [] := by decide
/-- V192: `sw x2, 1(x1)`. -/
theorem test_sw_v192 : after (harness 0x0020a0a3 [(1, 0x00000020), (2, 0xa1b2c3d4)] []) fun t =>
    t.byte 33 = 0xd4 ∧ t.byte 34 = 0xc3 ∧ t.byte 35 = 0xb2 ∧ t.byte 36 = 0xa1 := by decide
/-- V198: `sw x2, 0(x1)`. -/
theorem test_sw_faults_v198 : after (harness 0x0020a023 [(1, 0x00000ffe), (2, 0xdeadbeef)] []) fun t =>
    t.fault = some ⟨.memoryFault, 0x00000ffe⟩ ∧ t.status = .haltErr ∧ t.pc = 8 ∧ t.mem = [] := by decide
/-- V222: `fence`. -/
theorem test_fence_v222 : after (harness 0x0ff0000f [(5, 0x00000001)] []) fun t =>
    t.pc = 0x0000000c ∧ t.regs = (harness 0x0ff0000f [(5, 0x00000001)] []).regs := by decide
/-- V224: `fence (all ignored bits set)`. -/
theorem test_fence_v224 : after (harness 0xffff8f8f [(31, 0x00001234)] []) fun t =>
    t.pc = 0x0000000c ∧ t.regs = (harness 0xffff8f8f [(31, 0x00001234)] []).regs := by decide
/-- V209: `ecall`. -/
theorem test_ecall_v209 : after (harness 0x00000073 [(10, 0x00000001), (11, 0x00000100), (12, 0x00000002), (17, 0x00000040)] [(256, 0x68), (257, 0x69)]) fun t =>
    t.stdout = [0x68, 0x69] ∧ t.pc = 0x0000000c := by decide
/-- V216: `ecall`. -/
theorem test_ecall_v216 : after (harness 0x00000073 [(10, 0x00000002), (17, 0x0000005d)] []) fun t =>
    t.exitCode = some 0x00000002 ∧ t.pc = 0x0000000c ∧ t.status = .haltDone := by decide
/-- V221: `ebreak`. -/
theorem test_ebreak_v221 : after (harness 0x00100073 [(5, 0x00000001)] []) fun t =>
    t.fault = some ⟨.unsupportedOperation, 0x00100073⟩ ∧ t.status = .haltErr ∧ t.pc = 8 := by decide
/-- V42 (MRET): an illegal word halts with the word in the fault record. -/
theorem test_illegal_faults_v42 : after (harness 0x30200073 [] []) fun t =>
    t.fault = some ⟨.illegalInstruction, 0x30200073⟩ ∧ t.status = .haltErr ∧ t.pc = 8 := by decide

/-- V231: the empty program halts at its first step, from `State.reset` as it stands. -/
theorem test_reset_halts_v231 : after State.reset fun t => t = { State.reset with status := .haltDone } := by
  decide

/-- V239: the PC wraps at the top of the address space and leaves the range. -/
theorem test_pc_wraps_v239 : after (State.ofParams { Params.vectorDefaults with entry := 0xfffffffc, prog := [0x13] })
    fun t => t.pc = 0 ∧ t.status = .haltDone := by decide

/-- A word placed in the reset state is the first instruction run: `addi x5, x0, 5` (0x00500293). -/
theorem test_placed_word_runs : after (State.reset.withFetchWord 32 0x00500293) fun t => t.readReg 5 = 5 ∧ t.pc = 4 := by
  decide

/-- The parts of the expansion of `li` (30_encoding.md R105; program P2). -/
theorem test_li : Assembly.li 1 0x89abcdef = [.lui 1 0x89abd000, .addi 1 1 0xfffffdef] := by decide

/-- ABI names (10_state.md R23). -/
theorem test_abi_names : Assembly.abiRegister "a7" = some 17 ∧ Assembly.abiRegister "fp" = some 8 ∧
    Assembly.abiRegister "t6" = some 31 := by decide

/-! ### Witnesses: the hypotheses of every statement can be met -/

theorem test_witness_DecodeOfEncodeIsInstruction : (Instr.beq 1 2 0xfffff000).wf = true ∧ (Instr.jal 31 0x000ffffe).wf = true := by
  decide

theorem test_witness_EncodeOfDecodeIsWord : decode 0xfe20ae23 = .ok (.sw 1 2 0xfffffffc) ∧ Instr.sw 1 2 0xfffffffc ≠ .fence := by
  decide

theorem test_witness_OnlyFenceIgnoresBits :
    (0x8330000f : Word).extractLsb' 0 7 = 0b0001111#7 ∧ (0x8330000f : Word).extractLsb' 12 3 = 0b000#3 ∧
    decode 0x00000073 = .ok .ecall ∧ Instr.ecall ≠ .fence := by
  decide

theorem test_witness_DecodedInstructionIsWellFormed : decode 0x80208063 = .ok (.beq 1 2 0xfffff000) := by decide

theorem test_witness_OpcodeRowsPairwiseDisjoint :
    (⟨.ecall, .carrier, 0x00000073, 0xffffffff⟩ : Row) ∈ opcodeRows ∧
    Row.selects ⟨.ecall, .carrier, 0x00000073, 0xffffffff⟩ 0x00000073 = true := by
  decide

/-- The harness fetches the word under test. -/
theorem test_harness_fetches (w : Word) (rs : List (RegIdx × Word)) (m : List Host.Cell) : Fetches (harness w rs m) w where
  running := .inr rfl
  inRange := ⟨Nat.zero_le _, (by decide : (8 : Word).toNat < (0 : Word).toNat + 4 * 8)⟩
  word := by simp [harness, Params.vectorDefaults]

theorem test_witness_IllegalWordsAreExactlyTheListedAndFault :
    Fetches (harness 0 [] []) 0 ∧ IllegalShape 0 ∧ IllegalShape 0x02000033 ∧ ¬ IllegalShape 0x00000033 := by
  refine ⟨test_harness_fetches _ _ _, ?_, ?_, ?_⟩ <;> unfold IllegalShape <;> decide

theorem test_witness_StepRunsDecodedInstruction : Fetches (harness 0x00000073 [] []) 0x00000073 ∧
    decode 0x00000073 = .ok .ecall := ⟨test_harness_fetches _ _ _, by decide⟩

theorem test_witness_PlacedWordRunsNext : decode 0x0010a103 = .ok (.lw 2 1 1) := by decide

theorem test_witness_HaltedBlockLeavesOnlyByReset :
    ({ State.reset with status := .haltDone } : State).status = .haltDone ∧
    (faulted State.reset .memoryFault 0).status = .haltErr := ⟨rfl, rfl⟩

theorem test_params_wf : ({ Params.vectorDefaults with prog := [0x13, 0x13, 0x73, 0x13, 0x13, 0x13, 0x13, 0x13] } : Params).Wf where
  entryAligned := rfl
  progFits := by decide
  boundFits := by decide
  initCanonical := rfl
  initWithin := rfl

theorem test_witness_EmptyProgramHaltsDone : State.reset.Inv ∧ State.reset.status = .ready ∧ State.reset.fetch = none where
  left := { paramsWf := ⟨rfl, by decide, by decide, rfl, rfl⟩, memCanonical := rfl, memWithin := rfl, pcAligned := rfl
            readyIsReset := fun _ => rfl, activeInRange := fun h => by (cases h), errInRange := fun h => by (cases h)
            doneHasReason := fun h => by (cases h), faultIffErr := by decide, exitOnlyDone := by decide }
  right := ⟨rfl, rfl⟩

/-- A state of a run in the middle of a program meets the invariant. -/
theorem test_harness_inv : (harness 0x00000073 [(17, 93), (10, 2)] [(16, 0x80)]).Inv where
  paramsWf := test_params_wf
  memCanonical := by decide
  memWithin := by decide
  pcAligned := by decide
  readyIsReset := fun h => by cases h
  activeInRange := fun _ => ⟨by decide, by decide⟩
  errInRange := fun h => by cases h
  doneHasReason := fun h => by cases h
  faultIffErr := by decide
  exitOnlyDone := by decide

/-- Inside the range and leaving it: `beq x0, x0, 0` and `beq x0, x0, 24` (V142, V143). -/
theorem test_witness_PostStepRangeCheck : ∃ t u,
    exec (.beq 0 0 0) (harness 0 [] []) = .next t ∧ t.status = .active ∧
    exec (.beq 0 0 24) (harness 0 [] []) = .next u ∧ u.status = .haltDone :=
  ⟨_, _, exec_eq_apply _ _, by decide, exec_eq_apply _ _, by decide⟩

theorem test_witness_FaultingStepWritesOnlyFaultAndStatus :
    (harness 0x00100073 [] []).status = .active ∧ after (harness 0x00100073 [] []) fun t => t.status = .haltErr := by
  decide

/-- A branch, a load and an ECALL that fault (V145, V185, V218). -/
theorem test_witness_InstructionsRaiseOnlyTheirCauses : ∃ t u v,
    exec (.beq 0 0 6) (harness 0 [] []) = .next t ∧ t.status = .haltErr ∧
    exec (.lb 2 0 (-1)) (harness 0 [] []) = .next u ∧ u.status = .haltErr ∧
    exec .ecall (harness 0 [] []) = .next v ∧ v.status = .haltErr ∧
    Fetches (harness 0 [] []) 0 ∧ decode 0 = .error (.illegalInstruction 0) :=
  ⟨_, _, _, exec_eq_apply _ _, by decide, exec_eq_apply _ _, by decide, exec_eq_apply _ _,
    by decide, test_harness_fetches _ _ _, by decide⟩

theorem test_witness_StepKeepsInvariant : (harness 0x00000073 [(17, 93), (10, 2)] [(16, 0x80)]).Inv ∧
    after (harness 0x00000073 [(17, 93), (10, 2)] [(16, 0x80)]) fun t => t.status = .haltDone :=
  ⟨test_harness_inv, by decide⟩

theorem test_witness_ResetMeetsInvariant : Params.vectorDefaults.Wf := ⟨rfl, by decide, by decide, rfl, rfl⟩

/-- Parameters with a two-instruction program; the second instruction is `ebreak`. -/
def twoWords : Params := { Params.vectorDefaults with prog := [0x00000013, 0x00100073] }

/-- Is the state `cs` leads to, from the reset of `twoWords`, one with property `p`? -/
def runs (cs : List Command) (p : State → Bool) : Bool :=
  match commands cs (State.ofParams twoWords) with
  | .next t => p t
  | .fault _ => false
  | .refused _ => false

theorem test_reachable_of_runs {cs : List Command} {p : State → Bool} (h : runs cs p = true) :
    ∃ s, Reachable twoWords s ∧ p s = true := by
  unfold runs at h
  split at h
  · exact ⟨_, ⟨cs, by assumption⟩, h⟩
  · cases h
  · cases h

theorem test_witness_PcAlignedWhenReachable : twoWords.Wf ∧ Reachable twoWords (State.ofParams twoWords) :=
  ⟨⟨rfl, by decide, by decide, rfl, rfl⟩, [], rfl⟩

/-- Reachable states with each status the statement has a clause for. -/
theorem test_witness_PcRangeFollowsStatus :
    (∃ s, Reachable twoWords s ∧ (decide (s.status = .ready)) = true) ∧
    (∃ s, Reachable twoWords s ∧ (decide (s.status = .active)) = true) ∧
    (∃ s, Reachable twoWords s ∧ (decide (s.status = .haltErr)) = true) ∧
    (∃ s, Reachable { twoWords with prog := [] } s ∧ s.status = .haltDone) :=
  ⟨test_reachable_of_runs (cs := []) (by decide), test_reachable_of_runs (cs := [.step]) (by decide),
    test_reachable_of_runs (cs := [.run 2]) (by decide), ⟨{ State.ofParams { twoWords with prog := [] } with status := .haltDone }, ⟨[.step], rfl⟩, rfl⟩⟩

theorem test_witness_StoreNeverSeenByFetch : after (harness 0x0020a023 [(1, 8), (2, 0x11223344)] []) fun t =>
    t.byte 8 = 0x44 ∧ t.params = (harness 0x0020a023 [] []).params := by decide

theorem test_witness_StatusFollowsItsTable : (State.ofParams twoWords).status = .ready ∧
    (after (State.ofParams twoWords) fun t => t.status = .active) ∧
    (after (faulted State.reset .memoryFault 0) fun t => t.status = .haltErr) := by
  decide

/-- One word for each row the result statements quantify over. -/
theorem test_witness_register_words : (0x002081b3 : Word) &&& 0xfe00707f = 0x00000033 ∧
    (0x402081b3 : Word) &&& 0xfe00707f = 0x40000033 ∧ (0x0020f1b3 : Word) &&& 0xfe00707f = 0x00007033 ∧
    (0x0020e1b3 : Word) &&& 0xfe00707f = 0x00006033 ∧ (0x0020c1b3 : Word) &&& 0xfe00707f = 0x00004033 := by decide

theorem test_witness_immediate_words : (0x7ff08113 : Word) &&& 0x0000707f = 0x00000013 ∧
    (0xff00f113 : Word) &&& 0x0000707f = 0x00007013 ∧ (0x8000e113 : Word) &&& 0x0000707f = 0x00006013 ∧
    (0xfff0c113 : Word) &&& 0x0000707f = 0x00004013 := by decide

theorem test_witness_UpperImmediates : (0x123452b7 : Word) &&& 0x0000007f = 0x00000037 ∧
    (0x00001297 : Word) &&& 0x0000007f = 0x00000017 := by decide

theorem test_witness_shift_words : (0x002091b3 : Word) &&& 0xfe00707f = 0x00001033 ∧
    (0x0020d1b3 : Word) &&& 0xfe00707f = 0x00005033 ∧ (0x4020d1b3 : Word) &&& 0xfe00707f = 0x40005033 ∧
    (0x01f09113 : Word) &&& 0xfe00707f = 0x00001013 ∧ (0x0040d113 : Word) &&& 0xfe00707f = 0x00005013 ∧
    (0x4040d113 : Word) &&& 0xfe00707f = 0x40005013 := by decide

theorem test_witness_compare_words : (0x0020a1b3 : Word) &&& 0xfe00707f = 0x00002033 ∧
    (0x0020b1b3 : Word) &&& 0xfe00707f = 0x00003033 ∧ (0xfff0a113 : Word) &&& 0x0000707f = 0x00002013 ∧
    (0xfff0b113 : Word) &&& 0x0000707f = 0x00003013 := by decide

/-- Each branch condition at the two sides of its boundary, and both kinds of target. -/
theorem test_witness_BranchesFollowTheirCondition :
    ((5 : Word) = 5 ∧ ¬ (5 : Word) = 6) ∧
    ((0x80000000 : Word).toInt < (0x7fffffff : Word).toInt ∧ ¬ (7 : Word).toInt < (7 : Word).toInt) ∧
    ((0 : Word).toNat < (1 : Word).toNat ∧ ¬ (0xffffffff : Word).toNat < (1 : Word).toNat) ∧
    ((8 : Word) + 16).toNat % 4 = 0 ∧ ((8 : Word) + 6).toNat % 4 ≠ 0 ∧
    (0x00208863 : Word) &&& 0x0000707f = 0x00000063 ∧ (0x00209863 : Word) &&& 0x0000707f = 0x00001063 ∧
    (0x0020c863 : Word) &&& 0x0000707f = 0x00004063 ∧ (0x0020d863 : Word) &&& 0x0000707f = 0x00005063 ∧
    (0x0020e863 : Word) &&& 0x0000707f = 0x00006063 ∧ (0x0020f863 : Word) &&& 0x0000707f = 0x00007063 := by decide

theorem test_witness_JumpAndLink : (0x010000ef : Word) &&& 0x0000007f = 0x0000006f ∧
    ((harness 0 [] []).pc + 16).toNat % 4 = 0 ∧ ((harness 0 [] []).pc + 2).toNat % 4 ≠ 0 ∧
    (harness 0 [] []).pc.toNat % 4 = 0 ∧ (2 : Word).getLsbD 0 = false := by decide

/-- V157 and V159: the sums 17 and 14. -/
theorem test_witness_JumpAndLinkRegister : (0x005280e7 : Word) &&& 0x0000707f = 0x00000067 ∧
    ((harness 0 [(5, 12)] []).readReg 5 + 5).getLsbD 1 = false ∧
    ((harness 0 [(5, 12)] []).readReg 5 + 2).getLsbD 1 = true ∧ (16 : Word) = (17 : Word) &&& 0xfffffffe := by
  decide

theorem test_witness_MisalignedTargetFaultsExactly :
    takenTarget (harness 0 [] []) (.jal 1 2) = some 10 ∧ (10 : Word).toNat % 4 ≠ 0 ∧
    after (harness 0x002000ef [] []) fun t => t.status = .haltErr ∧ t.fault = some ⟨.misalignedTarget, 10⟩ := by
  decide

/-- The last admitted address of each width and the first refused one; the memory bound is 4096. -/
theorem test_witness_LoadsReadAndExtend :
    ((harness 0 [(1, 4095)] []).readReg 1 + 0).toNat + 1 ≤ (harness 0 [(1, 4095)] []).params.memBound ∧
    (harness 0 [(1, 4096)] []).params.memBound < ((harness 0 [(1, 4096)] []).readReg 1 + 0).toNat + 1 ∧
    ((harness 0 [(1, 4094)] []).readReg 1 + 0).toNat + 2 ≤ (harness 0 [(1, 4094)] []).params.memBound ∧
    (harness 0 [(1, 4095)] []).params.memBound < ((harness 0 [(1, 4095)] []).readReg 1 + 0).toNat + 2 ∧
    ((harness 0 [(1, 4092)] []).readReg 1 + 0).toNat + 4 ≤ (harness 0 [(1, 4092)] []).params.memBound ∧
    (harness 0 [(1, 4093)] []).params.memBound < ((harness 0 [(1, 4093)] []).readReg 1 + 0).toNat + 4 ∧
    (0x00008103 : Word) &&& 0x0000707f = 0x00000003 ∧ (0x00009103 : Word) &&& 0x0000707f = 0x00001003 ∧
    (0x0000a103 : Word) &&& 0x0000707f = 0x00002003 ∧ (0x0000c103 : Word) &&& 0x0000707f = 0x00004003 ∧
    (0x0000d103 : Word) &&& 0x0000707f = 0x00005003 := by decide

theorem test_witness_StoresWriteLowBytes : Memory.wf (harness 0 [(1, 4092)] [(16, 0x80), (17, 0x91)]).mem = true ∧
    ((harness 0 [(1, 4092)] []).readReg 1 + 0).toNat + 4 ≤ (harness 0 [(1, 4092)] []).params.memBound ∧
    (harness 0 [(1, 4093)] []).params.memBound < ((harness 0 [(1, 4093)] []).readReg 1 + 0).toNat + 4 ∧
    (0x00208023 : Word) &&& 0x0000707f = 0x00000023 ∧ (0x00209023 : Word) &&& 0x0000707f = 0x00001023 ∧
    (0x0020a023 : Word) &&& 0x0000707f = 0x00002023 := by decide

theorem test_witness_StoredByteLoadsBack : ∃ t, exec (.sb 1 2 0) (harness 0 [(1, 100), (2, 0xffffff80)] []) = .next t ∧
    Memory.wf (harness 0 [(1, 100), (2, 0xffffff80)] []).mem = true ∧
    ((harness 0 [(1, 100), (2, 0xffffff80)] []).readReg 1 + 0).toNat < (harness 0 [] []).params.memBound ∧
    t.readReg 1 + 0 = (harness 0 [(1, 100), (2, 0xffffff80)] []).readReg 1 + 0 ∧ (3 : RegIdx) ≠ 0 :=
  ⟨_, exec_eq_apply _ _, by decide⟩

theorem test_witness_MixedWidthsSeeTheSameBytes : Memory.wf (harness 0 [] []).mem = true ∧
    (harness 0 [] []).params.memBound ≤ 2 ^ 32 ∧
    (harness 0 [] []).memWrite 4092 (bytes32 0xdeadbeef) = .ok ⟨4092, bytes32 0xdeadbeef⟩ := by decide

theorem test_witness_OnlyLoadsStoresAndEcallTouchMemory : ∃ t, exec (.add 3 1 2) (harness 0 [] []) = .next t ∧
    isStore (.add 3 1 2) = false ∧ isLoad (.add 3 1 2) = false ∧ Instr.add 3 1 2 ≠ .ecall :=
  ⟨_, exec_eq_apply _ _, by decide⟩

theorem test_witness_NoInstructionReadsTheProgram : ∃ t, exec (.lw 2 1 0) (harness 0 [] []) = .next t :=
  ⟨_, exec_eq_apply _ _⟩

theorem test_witness_RegisterZeroDiscardsWrites : ∃ t, exec (.jal 1 16) (harness 0 [] []) = .next t ∧ t.readReg 1 = 12 :=
  ⟨_, exec_eq_apply _ _, by decide⟩

theorem test_witness_AtMostTheDestinationIsWritten : ∃ t, exec (.addi 5 0 7) (harness 0 [] []) = .next t ∧
    t.readReg 5 ≠ (harness 0 [] []).readReg 5 := ⟨_, exec_eq_apply _ _, by decide⟩

theorem test_witness_NoInstructionWritesRegisterAndMemory : ∃ t, exec (.sw 1 2 0) (harness 0 [(2, 7)] []) = .next t ∧
    t.byte 0 ≠ (harness 0 [(2, 7)] []).byte 0 := ⟨_, exec_eq_apply _ _, by decide⟩

theorem test_witness_FenceOnlyAdvances : (0xffff8f8f : Word) &&& 0x0000707f = 0x0000000f ∧
    (0xffff9f8f : Word) &&& 0x0000707f = 0x0000100f := by decide

/-- Each of the three answers. -/
theorem test_witness_EcallTakesTheAnswer :
    (harness 0x73 [(17, 1), (10, 42)] []).callEnv = .goOn [0x34, 0x32] ∧
    (harness 0x73 [(17, 93), (10, 2)] []).callEnv = .exit 2 ∧
    (harness 0x73 [(17, 11)] []).callEnv = .fail .unsupportedSyscall 11 ∧
    (harness 0x73 [(17, 64), (11, 4095), (12, 2)] []).callEnv = .fail .memoryFault 4095 := by decide

theorem test_witness_ExitCodeOnlyFromExitCall : ∃ t, exec .ecall (harness 0x73 [(17, 93), (10, 0xffffffff)] []) = .next t ∧
    t.exitCode ≠ (harness 0x73 [] []).exitCode ∧ t.exitCode = some 0xffffffff ∧ (harness 0x73 [] []).exitCode = none :=
  ⟨_, exec_eq_apply _ _, by decide⟩

theorem test_witness_StdoutOnlyGrows : ∃ t, exec .ecall (harness 0x73 [(17, 1)] []) = .next t ∧ t.stdout = [0x30] :=
  ⟨_, exec_eq_apply _ _, by decide⟩

theorem test_witness_ReferenceExitsAndRefusesUnknown : (harness 0 [(17, 93)] []).params.env = .reference ∧
    ((harness 0 [(17, 93)] []).readReg 17).toNat = 93 ∧ ((harness 0 [(17, 10)] []).readReg 17).toNat = 10 ∧
    ((harness 0 [] []).readReg 17).toNat ∉ [1, 10, 64, 93] ∧
    ((harness 0 [(17, 0xffffffff)] []).readReg 17).toNat ∉ [1, 10, 64, 93] := by decide

/-- The length 0 at the bound and one byte past it (V211, V213), and a sum past 2^32 (V214). -/
theorem test_witness_ReferencePrintsBytes : ((harness 0 [(17, 64)] []).readReg 17).toNat = 64 ∧
    ((harness 0 [(11, 4096)] []).readReg 11).toNat + ((harness 0 [(11, 4096)] []).readReg 12).toNat ≤ 4096 ∧
    4096 < ((harness 0 [(11, 4097)] []).readReg 11).toNat + ((harness 0 [(11, 4097)] []).readReg 12).toNat ∧
    (harness 0 [(17, 64), (11, 0xffffffff), (12, 0xffffffff)] []).callEnv = .fail .memoryFault 0xffffffff := by
  decide

/-- The most negative number and zero (V207, V205). -/
theorem test_witness_ReferencePrintsSignedDecimal : ((harness 0 [(17, 1)] []).readReg 17).toNat = 1 ∧
    decimalText 0x80000000 = [0x2d, 0x32, 0x31, 0x34, 0x37, 0x34, 0x38, 0x33, 0x36, 0x34, 0x38] ∧
    decimalText 0 = [0x30] := by decide

theorem test_witness_ResetWritesEveryResetValue : ∃ t, command .reset (harness 0 [(5, 9)] [(16, 1)]) = .next t ∧
    t.readReg 5 = 0 ∧ t.mem = [] := ⟨_, rfl, by decide⟩

theorem test_witness_ResetForgetsWhatHappened : ∃ t, commands [.reset, .run 0] (harness 0 [(5, 9)] []) = .next t :=
  ⟨_, rfl⟩

theorem test_witness_RunRepeatsStep : ∃ t, runFor 2 { State.reset with status := .haltDone } = .next t ∧ t.halted = true :=
  ⟨_, rfl, rfl⟩

end Sys2Proof.Tests
end

section
/-! SUPPORT. What an instruction's effect can be, whatever the instruction: the one inversion every
statement about `exec` and `step` below goes through. -/

namespace Sys2Proof.Machine

open Sys2Proof.Claims

/-! ### The shapes an effect can have -/

/-- Moving the PC to `pc` keeps it a multiple of 4 (10_state.md R36). -/
def State.KeepsAligned (s : State) (pc : Word) : Prop := s.pc.toNat % 4 = 0 → pc.toNat % 4 = 0

/-- Everything the effect of instruction `i` in state `s` can be: a fault, or one of five deltas, of
which only an instruction with a destination writes a register, only a store memory, and only an ECALL
`STDOUT` or `EXIT_CODE`. -/
inductive EffectShape (s : State) (i : Instr) : Effect → Prop where
  | faults (f : FaultRecord) : EffectShape s i (.error f)
  | writes {rd : RegIdx} {pc : Word} (v : Word) (hrd : destination i = some rd) (hpc : s.KeepsAligned pc) :
      EffectShape s i (.ok { reg := some (rd, v), nextPc := pc })
  | moves {pc : Word} (hrd : destination i = none) (hpc : s.KeepsAligned pc) :
      EffectShape s i (.ok { nextPc := pc })
  | stores {ea : Nat} {bs : List Byte} (hrd : destination i = none) (hin : ea + bs.length ≤ s.params.memBound) :
      EffectShape s i (.ok { store := some ⟨ea, bs⟩, nextPc := s.pc + 4 })
  | prints {bytes : List Byte} (hi : i = .ecall) (henv : s.callEnv = .goOn bytes) :
      EffectShape s i (.ok { out := bytes, nextPc := s.pc + 4 })
  | exits {code : Word} (hi : i = .ecall) (henv : s.callEnv = .exit code) :
      EffectShape s i (.ok { exit := some code, nextPc := s.pc + 4 })

theorem keepsAligned_add_four (s : State) : s.KeepsAligned (s.pc + 4) := by
  intro h
  rw [BitVec.toNat_add, show (4 : Word).toNat = 4 from rfl]
  omega

section
variable {s : State} {i : Instr} {rd : RegIdx}

theorem writeRd_shape (v : Word) (hrd : destination i = some rd) : EffectShape s i (s.writeRd rd v) :=
  .writes v hrd (keepsAligned_add_four s)

theorem advance_shape (hrd : destination i = none) : EffectShape s i s.advance :=
  .moves hrd (keepsAligned_add_four s)

theorem branch_shape (c : Bool) (imm : Word) (hrd : destination i = none) :
    EffectShape s i (s.branch c imm) := by
  rw [branch_eq]
  split
  · split
    · next htarget => exact .moves hrd fun _ => htarget
    · exact .faults _
  · exact advance_shape hrd

theorem jump_shape (target : Word) (hrd : destination i = some rd) : EffectShape s i (s.jump rd target) := by
  rw [jump_eq]
  split
  · next htarget => exact .writes _ hrd fun _ => htarget
  · exact .faults _

theorem load_shape (value : Except FaultRecord Word) (hrd : destination i = some rd) :
    EffectShape s i (s.load rd value) := by
  cases value with
  | ok v => exact writeRd_shape v hrd
  | error f => exact .faults f

theorem store_shape (ea : Word) (bs : List Byte) (hrd : destination i = none) :
    EffectShape s i (s.store ea bs) := by
  rw [store_eq]
  split
  · next hin => exact .stores hrd hin
  · exact .faults _

end

theorem ecall_shape (s : State) : EffectShape s .ecall (effectOf .ecall s) := by
  obtain ⟨bytes, henv, he⟩ | ⟨code, henv, he⟩ | ⟨cause, info, -, he⟩ := ecall_cases s <;> rw [he]
  · exact .prints rfl henv
  · exact .exits rfl henv
  · exact .faults _

/-- Every instruction's effect has one of the shapes. -/
theorem effectOf_shape (i : Instr) (s : State) : EffectShape s i (effectOf i s) := by
  cases i with
  | lui | auipc | addi | slti | sltiu | xori | ori | andi | slli | srli | srai
  | add | sub | sll | slt | sltu | xor | srl | sra | or | and => exact writeRd_shape _ rfl
  | jal | jalr => exact jump_shape _ rfl
  | lb | lh | lw | lbu | lhu => exact load_shape _ rfl
  | beq | bne | blt | bge | bltu | bgeu => exact branch_shape _ _ rfl
  | sb | sh | sw => exact store_shape _ _ rfl
  | fence => exact advance_shape rfl
  | ecall => exact ecall_shape s
  | ebreak => exact .faults _

/-- The next state of an instruction is an effect of one of the shapes, applied. -/
theorem exec_shape {i : Instr} {s t : State} (h : exec i s = .next t) :
    ∃ e, EffectShape s i e ∧ t = s.apply e :=
  ⟨_, effectOf_shape i s, exec_next_iff.1 h⟩

/-- A delta of an instruction moves an aligned PC to an aligned PC. -/
theorem EffectShape.keepsAligned {s : State} {i : Instr} {d : Delta} (h : EffectShape s i (.ok d)) :
    s.KeepsAligned d.nextPc := by
  cases h with
  | writes _ _ hpc | moves _ hpc => exact hpc
  | stores | prints | exits => exact keepsAligned_add_four s

/-- A delta of an instruction stores below the bound (20_memory.md R53). -/
theorem EffectShape.store_within {s : State} {i : Instr} {d : Delta} (h : EffectShape s i (.ok d))
    {w : MemWrite} (hw : d.store = some w) : w.addr + w.bytes.length ≤ s.params.memBound := by
  cases h with
  | stores _ hin => cases hw; exact hin
  | writes | moves | prints | exits => cases hw

/-- An instruction whose form has no destination writes no register. -/
theorem EffectShape.reg_eq_none {s : State} {i : Instr} {d : Delta} (h : EffectShape s i (.ok d))
    (hrd : destination i = none) : d.reg = none := by
  cases h with
  | writes _ hrd' => cases hrd.symm.trans hrd'
  | moves | stores | prints | exits => rfl

/-! ### An effect without its register write -/

/-- The effect with its register write, if it has one, sent to register 0. -/
def Effect.toRegZero (e : Effect) : Effect :=
  e.map fun d => { d with reg := d.reg.map fun w => (0, w.2) }

/-- With its write sent to register 0, an effect keeps the registers and does all else as before
(10_state.md R21). -/
theorem apply_toRegZero (s : State) (e : Effect) :
    s.apply e.toRegZero = { s.apply e with regs := s.regs } := by
  cases e with
  | error f => rfl
  | ok d =>
    obtain ⟨reg, store, out, exit, nextPc⟩ := d
    cases reg <;> rfl

theorem toRegZero_of_reg_none {d : Delta} (h : d.reg = none) : Effect.toRegZero (.ok d) = .ok d := by
  obtain ⟨reg, store, out, exit, nextPc⟩ := d
  cases h
  rfl

theorem jump_zero (s : State) (rd : RegIdx) (target : Word) :
    s.jump 0 target = (s.jump rd target).toRegZero := by
  simp only [jump_eq]
  split <;> rfl

theorem load_zero (s : State) (rd : RegIdx) (value : Except FaultRecord Word) :
    s.load 0 value = (s.load rd value).toRegZero := by
  cases value <;> rfl

/-- An instruction without a destination has no register write to send anywhere. -/
theorem effectOf_eq_toRegZero {i : Instr} (hrd : destination i = none) (s : State) :
    effectOf i s = (effectOf i s).toRegZero := by
  have hshape := effectOf_shape i s
  cases he : effectOf i s with
  | error f => rfl
  | ok d =>
    rw [he] at hshape
    exact (toRegZero_of_reg_none (hshape.reg_eq_none hrd)).symm

/-- The effect of an instruction with `rd = 0` is its effect with the write sent to register 0. -/
theorem effectOf_withRdZero (i : Instr) (s : State) :
    effectOf (withRdZero i) s = (effectOf i s).toRegZero := by
  cases i with
  | lui | auipc | addi | slti | sltiu | xori | ori | andi | slli | srli | srai
  | add | sub | sll | slt | sltu | xor | srl | sra | or | and => rfl
  | jal | jalr => exact jump_zero s _ _
  | lb | lh | lw | lbu | lhu => exact load_zero s _ _
  | beq | bne | blt | bge | bltu | bgeu | sb | sh | sw | fence | ecall | ebreak =>
    exact effectOf_eq_toRegZero rfl s

/-! ### Status, fetch and the parameters -/

theorem statusAfter_eq_active {p : Params} {exit : Option Word} {pc : Word}
    (h : statusAfter p exit pc = .active) : InValidRange p pc := by
  unfold statusAfter at h
  split at h
  · cases h
  · split at h
    · next hin => exact (inRange_iff p pc).1 hin
    · cases h

theorem statusAfter_eq_haltDone {p : Params} {exit : Option Word} {pc : Word}
    (h : statusAfter p exit pc = .haltDone) : exit.isSome ∨ ¬ InValidRange p pc := by
  unfold statusAfter at h
  split at h
  · next hexit => exact .inl hexit
  · split at h
    · cases h
    · next hin => exact .inr fun hr => hin ((inRange_iff p pc).2 hr)

theorem statusAfter_cases (p : Params) (exit : Option Word) (pc : Word) :
    statusAfter p exit pc = .active ∨ statusAfter p exit pc = .haltDone := by
  unfold statusAfter
  split
  · exact .inr rfl
  · split
    · exact .inl rfl
    · exact .inr rfl

/-- A committed delta is no fault. -/
theorem commit_status_ne_haltErr (s : State) (d : Delta) : (s.commit d).status ≠ .haltErr :=
  statusAfter_ne_haltErr s.params d.exit d.nextPc

/-- There is a word at every PC in the valid range (20_memory.md R58). -/
theorem not_inValidRange_of_fetch_none {s : State} (h : s.fetch = none) :
    ¬ InValidRange s.params s.pc := by
  intro hr
  rw [State.fetch, fetchAt, if_pos ((inRange_iff _ _).2 hr), List.getElem?_eq_none_iff] at h
  obtain ⟨hlo, hhi⟩ := hr
  omega

/-- Everything a step of an unhalted block can do (47_step_cycle.md R228): end an empty program, take a
fault, or commit an instruction's delta. -/
theorem step_running {s t : State} (h : step s = .next t) (hrun : s.halted = false) :
    (s.fetch = none ∧ t = { s with status := .haltDone }) ∨
    (InValidRange s.params s.pc ∧ ∃ f, t = s.takeFault f) ∨
    (InValidRange s.params s.pc ∧ ∃ i d, EffectShape s i (.ok d) ∧ t = s.commit d) := by
  obtain ⟨hh, -⟩ | ⟨-, hf, hs⟩ | ⟨-, iw, hf, -, hs⟩ | ⟨-, iw, i, hf, -, hs⟩ := step_cases s
  · rw [hrun] at hh; cases hh
  all_goals
    rw [hs] at h
    cases h
  · exact .inl ⟨hf, rfl⟩
  · exact .inr (.inl ⟨fetch_some_inRange hf, _, rfl⟩)
  · have hshape := effectOf_shape i s
    cases he : effectOf i s with
    | error f => exact .inr (.inl ⟨fetch_some_inRange hf, f, rfl⟩)
    | ok d => exact .inr (.inr ⟨fetch_some_inRange hf, i, d, he ▸ hshape, rfl⟩)

/-- A halted block steps to itself (47_step_cycle.md R234). -/
theorem step_halted {s t : State} (h : step s = .next t) (hh : s.halted = true) : t = s := by
  rw [step, State.cycle, if_pos hh] at h
  cases h
  rfl

end Sys2Proof.Machine
end

section
/-! SUPPORT. The invariant of a run: what reset, the end of the program, a fault and a commit do to it,
and the induction over the host's commands. -/

namespace Sys2Proof.Machine

open Sys2Proof.Claims

/-! ### The invariant -/

/-- The state after reset with legal parameters meets the invariant (10_state.md R39). -/
theorem ofParams_inv {p : Params} (hp : p.Wf) : (State.ofParams p).Inv where
  paramsWf := hp
  memCanonical := hp.initCanonical
  memWithin := hp.initWithin
  pcAligned := hp.entryAligned
  readyIsReset _ := rfl
  activeInRange h := nomatch h
  errInRange h := nomatch h
  doneHasReason h := nomatch h
  faultIffErr := by simp
  exitOnlyDone h := nomatch h

theorem vectorDefaults_wf : Params.vectorDefaults.Wf := by
  constructor <;> decide

section
variable {s : State} (hs : s.Inv)
include hs

/-- `reset` brings the invariant back, the parameters being kept. -/
theorem State.Inv.reset : (resetCommand s).Inv := ofParams_inv hs.paramsWf

/-- A block that is running or about to run has delivered no exit code (10_state.md R27). -/
theorem State.Inv.exitCode_eq_none (hrun : s.halted = false) : s.exitCode = none := by
  rw [← Option.not_isSome_iff_eq_none]
  intro hexit
  rw [(halted_iff s).2 (.inl (hs.exitOnlyDone hexit))] at hrun
  cases hrun

/-- A block that is running or about to run has no fault record (10_state.md R28). -/
theorem State.Inv.fault_eq_none (hrun : s.halted = false) : s.fault = none := by
  rw [← Option.not_isSome_iff_eq_none]
  intro hfault
  rw [(halted_iff s).2 (.inr (hs.faultIffErr.1 hfault))] at hrun
  cases hrun

/-- Halting outside the valid range, with nothing to fetch (47_step_cycle.md R237), keeps the invariant. -/
theorem State.Inv.haltDone (hrun : s.halted = false) (hr : ¬ InValidRange s.params s.pc) :
    ({ s with status := .haltDone } : State).Inv :=
  { hs with
    readyIsReset := nofun
    activeInRange := nofun
    errInRange := nofun
    doneHasReason := fun _ => .inr hr
    faultIffErr := by simp [hs.fault_eq_none hrun]
    exitOnlyDone := fun _ => rfl }

/-- Taking a fault at a PC in the valid range keeps the invariant. -/
theorem State.Inv.takeFault (hrun : s.halted = false) (hr : InValidRange s.params s.pc) (f : FaultRecord) :
    (s.takeFault f).Inv :=
  { hs with
    readyIsReset := nofun
    activeInRange := nofun
    errInRange := fun _ => hr
    doneHasReason := nofun
    faultIffErr := by simp
    exitOnlyDone := by simp [hs.exitCode_eq_none hrun] }

/-- Committing a delta keeps the canonical form of the memory. -/
theorem State.Inv.commit_mem_wf (d : Delta) : Memory.wf (s.commit d).mem = true := by
  cases hst : d.store with
  | none => rw [commit_mem_none s d hst]; exact hs.memCanonical
  | some w => rw [commit_mem_some s d hst]; exact Memory.wf_setBytes hs.memCanonical _ _

/-- Committing a delta that stores below the bound lists no cell above it. -/
theorem State.Inv.commit_mem_within {d : Delta}
    (hstore : ∀ w, d.store = some w → w.addr + w.bytes.length ≤ s.params.memBound) :
    Memory.within s.params.memBound (s.commit d).mem = true := by
  cases hst : d.store with
  | none => rw [commit_mem_none s d hst]; exact hs.memWithin
  | some w => rw [commit_mem_some s d hst]; exact Memory.within_setBytes hs.memWithin (hstore w hst)

/-- Committing a delta of an instruction keeps the invariant. -/
theorem State.Inv.commit (hrun : s.halted = false) {i : Instr} {d : Delta} (hd : EffectShape s i (.ok d)) :
    (s.commit d).Inv where
  paramsWf := hs.paramsWf
  memCanonical := hs.commit_mem_wf d
  memWithin := hs.commit_mem_within fun _ => hd.store_within
  pcAligned := hd.keepsAligned hs.pcAligned
  readyIsReset h := absurd h (statusAfter_ne_ready _ _ _)
  activeInRange h := statusAfter_eq_active h
  errInRange h := absurd h (commit_status_ne_haltErr s d)
  doneHasReason h := by
    rw [commit_exitCode, hs.exitCode_eq_none hrun, Option.or_none]
    exact statusAfter_eq_haltDone h
  faultIffErr := by
    simp [hs.fault_eq_none hrun, statusAfter_ne_haltErr]
  exitOnlyDone h := by
    rw [commit_exitCode, hs.exitCode_eq_none hrun, Option.or_none] at h
    rw [commit_status, statusAfter, if_pos h]

/-- Every step keeps the invariant. -/
theorem State.Inv.step {t : State} (h : step s = .next t) : t.Inv := by
  cases hh : s.halted with
  | true => exact step_halted h hh ▸ hs
  | false =>
    obtain ⟨hf, rfl⟩ | ⟨hr, f, rfl⟩ | ⟨-, i, d, hd, rfl⟩ := step_running h hh
    · exact hs.haltDone hh (not_inValidRange_of_fetch_none hf)
    · exact hs.takeFault hh hr f
    · exact hs.commit hh hd

/-- A block about to run a non-empty program, or running, has its PC in the valid range (10_state.md R38). -/
theorem State.Inv.inValidRange_of_running (hrun : s.status = .ready ∨ s.status = .active)
    (hprog : 0 < s.params.prog.length) : InValidRange s.params s.pc := by
  rcases hrun with hready | hactive
  · rw [hs.readyIsReset hready]
    exact ⟨le_rfl, by simp only [ofParams_pc, ofParams_params]; omega⟩
  · exact hs.activeInRange hactive

end

/-! ### What every host command keeps -/

/-- The parameters are constant (00_scope.md R7). -/
theorem step_params {s t : State} (h : step s = .next t) : t.params = s.params := by
  cases hh : s.halted with
  | true => rw [step_halted h hh]
  | false => obtain ⟨-, rfl⟩ | ⟨-, f, rfl⟩ | ⟨-, i, d, -, rfl⟩ := step_running h hh <;> rfl

section
variable {P : State → Prop} (hstep : ∀ s t, P s → step s = .next t → P t)
  (hreset : ∀ s, P s → P (resetCommand s))
include hstep

/-- What every step keeps, `run` keeps. -/
theorem runFor_keeps {fuel : Nat} {s t : State} (hs : P s) (h : runFor fuel s = .next t) : P t := by
  induction fuel generalizing s with
  | zero => cases h; exact hs
  | succ fuel ih =>
    rw [runFor] at h
    split at h
    · cases h; exact hs
    · split at h
      · next u hu => exact ih (hstep s u hs hu) h
      · cases h
      · cases h

include hreset

/-- What every step and `reset` keep, every command keeps. -/
theorem command_keeps {c : Command} {s t : State} (hs : P s) (h : command c s = .next t) : P t := by
  cases c with
  | step => exact hstep s t hs h
  | run fuel => exact runFor_keeps hstep hs h
  | reset => cases h; exact hreset s hs

/-- What every step and `reset` keep, every sequence of commands keeps (47_step_cycle.md R227). -/
theorem commands_keep {cs : List Command} {s t : State} (hs : P s) (h : commands cs s = .next t) : P t := by
  induction cs generalizing s with
  | nil => cases h; exact hs
  | cons c cs ih =>
    rw [commands] at h
    split at h
    · next u hu => exact ih (command_keeps hstep hreset hs hu) h
    · cases h
    · cases h

end

/-- Every state a block with legal parameters reaches meets the invariant. -/
theorem Reachable.inv {p : Params} {s : State} (hp : p.Wf) (h : Reachable p s) : s.Inv := by
  obtain ⟨cs, hcs⟩ := h
  exact commands_keep (fun _ _ hs => hs.step) (fun _ hs => hs.reset) (ofParams_inv hp) hcs

theorem commands_params {cs : List Command} {s t : State} (h : commands cs s = .next t) :
    t.params = s.params :=
  commands_keep (P := fun u => u.params = s.params) (fun _ _ hu hstep => (step_params hstep).trans hu)
    (fun _ hu => hu) rfl h

end Sys2Proof.Machine
end

section
/-! The statements about the state (10_state.md), settled. -/

namespace Sys2Proof.Machine

open Sys2Proof.Claims

/-- Settles O16: a step is the halted state itself, the end of the program, a fault or a commit, and each
keeps the invariant. -/
theorem stepKeepsInvariant : Obligations.StepKeepsInvariant := fun _ _ hs h => hs.step h

/-- Settles O18, by the invariant of every reachable state. -/
theorem pcAlignedWhenReachable : Obligations.PcAlignedWhenReachable :=
  fun _ _ hp h => (h.inv hp).pcAligned

/-- Settles O19, by the invariant of every reachable state. -/
theorem pcRangeFollowsStatus : Obligations.PcRangeFollowsStatus := by
  intro p s hp h
  have hs := h.inv hp
  exact ⟨fun hrun hprog => ⟨hs.inValidRange_of_running hrun hprog, hs.pcAligned⟩, hs.doneHasReason,
    fun herr => ⟨hs.errInRange herr, hs.faultIffErr.2 herr⟩⟩

/-- Settles O38: with `rd = 0` an instruction has the same effect, its write sent to register 0. -/
theorem registerZeroDiscardsWrites : Obligations.RegisterZeroDiscardsWrites := by
  refine ⟨readReg_zero, fun i s u h => ?_⟩
  rw [exec_next_iff.1 h, exec_eq_apply, effectOf_withRdZero, apply_toRegZero]

/-- Settles O39, by the shapes of effect: only one writes a register, and it is no fault. -/
theorem atMostTheDestinationIsWritten : Obligations.AtMostTheDestinationIsWritten := by
  intro i s t h r hr
  obtain ⟨e, hshape, rfl⟩ := exec_shape h
  cases hshape with
  | writes v hrd _ =>
    rw [apply_ok] at hr ⊢
    refine ⟨?_, commit_status_ne_haltErr s _⟩
    rw [commit_regWritten s _ rfl r] at hr
    split at hr
    · next hzero => exact absurd (hzero ▸ readReg_zero s).symm hr
    · split at hr
      · next hdest => rw [hdest]; exact hrd
      · exact absurd rfl hr
  | faults | moves | stores | prints | exits => exact absurd (readReg_congr rfl r) hr

/-- Settles O44, by the shapes of effect: only an ECALL answered `Exit` carries an exit code. -/
theorem exitCodeOnlyFromExitCall : Obligations.ExitCodeOnlyFromExitCall := by
  refine ⟨fun i s t h hne => ?_, fun s code hcode => by rw [exitResult, hcode, Option.map_some],
    fun s hnone => by rw [exitResult, hnone, Option.map_none]⟩
  obtain ⟨e, hshape, rfl⟩ := exec_shape h
  cases hshape with
  | exits hi henv => exact ⟨hi, _, henv, rfl, rfl⟩
  | faults | writes | moves | stores | prints => exact absurd rfl hne

/-- Settles O45, by the shapes of effect: only an ECALL answered `Continue` carries output, and a step
appends what a committed delta carries. -/
theorem stdoutOnlyGrows : Obligations.StdoutOnlyGrows := by
  refine ⟨fun i s t h => ?_, fun s t h => ?_, fun _ => rfl⟩
  · obtain ⟨e, hshape, rfl⟩ := exec_shape h
    cases hshape with
    | prints hi henv => exact .inr ⟨hi, _, henv, rfl⟩
    | faults => exact .inl rfl
    | writes | moves | stores | exits => exact .inl (List.append_nil _)
  · cases hh : s.halted with
    | true => rw [step_halted h hh]
    | false =>
      obtain ⟨-, rfl⟩ | ⟨-, f, rfl⟩ | ⟨-, i, d, -, rfl⟩ := step_running h hh
      · exact List.prefix_rfl
      · exact List.prefix_rfl
      · exact List.prefix_append ..

/-- Settles O50: `reset` reads only the parameters, which every command keeps. -/
theorem resetForgetsWhatHappened : Obligations.ResetForgetsWhatHappened := by
  intro s t cs h
  rw [resetCommand, resetCommand, commands_params h]

/-- Settles O17. -/
theorem resetMeetsInvariant : Obligations.ResetMeetsInvariant :=
  ⟨fun _ => ofParams_inv, ofParams_inv vectorDefaults_wf⟩

/-- Settles O21: a halted block steps to itself, and what an unhalted one does never ends `READY`. -/
theorem statusFollowsItsTable : Obligations.StatusFollowsItsTable := by
  intro s t h
  refine ⟨fun hrun => ?_, fun hdone => ?_, fun herr => ?_⟩
  · obtain ⟨-, rfl⟩ | ⟨-, f, rfl⟩ | ⟨-, i, d, -, rfl⟩ := step_running h ((not_halted_iff s).2 hrun)
    · exact .inr (.inl rfl)
    · exact .inr (.inr rfl)
    · exact (statusAfter_cases s.params d.exit d.nextPc).imp_right .inl
  · rw [step_halted h ((halted_iff s).2 (.inl hdone)), hdone]
  · rw [step_halted h ((halted_iff s).2 (.inr herr)), herr]

end Sys2Proof.Machine
end

section
/-! SUPPORT. The data memory and the program store (20_memory.md): what reads of each width see of a word
written there, and which instructions an effect depends on them for. -/

namespace Sys2Proof.Machine

open Sys2Proof.Claims

/-! ### Reads of a word in memory -/

/-- The word `v` stands at `a` in little-endian order (20_memory.md R52), wholly below a legal bound. -/
structure State.HoldsWord (s : State) (a v : Word) : Prop where
  fits      : a.toNat + 4 ≤ s.params.memBound
  boundFits : s.params.memBound ≤ 2 ^ 32
  bytes     : ∀ k < 4, s.byte (a.toNat + k) = v.extractLsb' (8 * k) 8

/-- An admitted write is all of its bytes at its address (20_memory.md R53, R55). -/
theorem memWrite_ok {s : State} {a : Word} {bs : List Byte} {w : MemWrite} (h : s.memWrite a bs = .ok w) :
    a.toNat + bs.length ≤ s.params.memBound ∧ w = ⟨a.toNat, bs⟩ := by
  unfold State.memWrite at h
  split at h
  · next hadm => cases h; exact ⟨of_decide_eq_true hadm, rfl⟩
  · cases h

/-- Byte `k` of a word, counted from the least significant (20_memory.md R52). -/
theorem bytes32_getD (v : Word) {k : Nat} (hk : k < 4) : (bytes32 v).getD k 0 = v.extractLsb' (8 * k) 8 := by
  match k, hk with
  | 0, _ | 1, _ | 2, _ | 3, _ => rfl

/-- After an admitted word write the word stands at its address. -/
theorem holdsWord_of_memWrite {s : State} {a v : Word} {w : MemWrite} (hm : Memory.wf s.mem = true)
    (hbound : s.params.memBound ≤ 2 ^ 32) (h : s.memWrite a (bytes32 v) = .ok w) :
    ({ s with mem := Memory.setBytes s.mem w.addr w.bytes } : State).HoldsWord a v := by
  obtain ⟨hfits, rfl⟩ := memWrite_ok h
  refine ⟨hfits, hbound, fun k hk => ?_⟩
  have hin : a.toNat ≤ a.toNat + k ∧ a.toNat + k < a.toNat + (bytes32 v).length :=
    ⟨Nat.le_add_right .., Nat.add_lt_add_left hk _⟩
  rw [State.byte, Memory.get_setBytes hm, if_pos hin, Nat.add_sub_cancel_left, bytes32_getD v hk]

section
variable {s : State} {a v : Word} (h : s.HoldsWord a v) {k : Nat}
include h

/-- The addresses of the word's bytes do not wrap (20_memory.md R53). -/
theorem State.HoldsWord.toNat_add (hk : k < 4) : (a + BitVec.ofNat 32 k).toNat = a.toNat + k := by
  have hfits := h.fits
  have hbound := h.boundFits
  rw [BitVec.toNat_add, BitVec.toNat_ofNat]
  omega

/-- An access that ends within the word is admitted. -/
theorem State.HoldsWord.admits {n : Nat} (hk : k < 4) (hn : k + n ≤ 4) :
    s.admits (a + BitVec.ofNat 32 k) n = true := by
  have hfits := h.fits
  rw [State.admits, h.toNat_add hk, decide_eq_true_eq]
  omega

/-- A byte read within the word gives the slice of 8 bits at its offset (20_memory.md R54, R57). -/
theorem State.HoldsWord.memRead8 (hk : k < 4) :
    s.memRead8 (a + BitVec.ofNat 32 k) = .ok (v.extractLsb' (8 * k) 8) := by
  rw [State.memRead8, if_pos (h.admits hk hk), h.toNat_add hk, h.bytes k hk]

/-- A halfword read within the word gives the slice of 16 bits at its offset (20_memory.md R54, R57). -/
theorem State.HoldsWord.memRead16 (hk : k < 3) :
    s.memRead16 (a + BitVec.ofNat 32 k) = .ok (v.extractLsb' (8 * k) 16) := by
  have hk' : k < 4 := by omega
  rw [State.memRead16, if_pos (h.admits hk' (by omega)), h.toNat_add hk', Nat.add_assoc,
    h.bytes k hk', h.bytes (k + 1) (by omega),
    BitVec.extractLsb'_append_extractLsb'_eq_extractLsb' (Nat.mul_succ 8 k)]

/-- A word read at the word's address gives it back (20_memory.md R54, R57). -/
theorem State.HoldsWord.memRead32 : s.memRead32 a = .ok v := by
  have hadm : s.admits a 4 = true := decide_eq_true h.fits
  rw [State.memRead32, if_pos hadm, h.bytes 3 (by decide), h.bytes 2 (by decide), h.bytes 1 (by decide),
    ← Nat.add_zero a.toNat, h.bytes 0 (by decide)]
  rw [BitVec.extractLsb'_append_extractLsb'_eq_extractLsb' (show 8 * 3 = 8 * 2 + 8 from rfl),
    BitVec.extractLsb'_append_extractLsb'_eq_extractLsb' (show 8 * 2 = 8 * 1 + 8 from rfl),
    BitVec.extractLsb'_append_extractLsb'_eq_extractLsb' (show 8 * 1 = 8 * 0 + 8 from rfl)]
  exact congrArg Except.ok BitVec.extractLsb'_eq_self

end

/-! ### What an effect depends on -/

/-- The effect of an instruction that is no load, store or ECALL is the same whatever the memory holds. -/
theorem effectOf_mem {i : Instr} (hload : isLoad i = false) (hstore : isStore i = false) (hecall : i ≠ .ecall)
    (s : State) (m : List Host.Cell) : effectOf i { s with mem := m } = effectOf i s := by
  cases i with
  | lb | lh | lw | lbu | lhu => cases hload
  | sb | sh | sw => cases hstore
  | ecall => exact absurd rfl hecall
  | lui | auipc | jal | jalr | beq | bne | blt | bge | bltu | bgeu | addi | slti | sltiu | xori | ori | andi
  | slli | srli | srai | add | sub | sll | slt | sltu | xor | srl | sra | or | and | fence | ebreak => rfl

/-- No effect depends on the program store or where it is entered: a load reads the data memory and its
bound, an ECALL hands the environment those and the registers. -/
theorem effectOf_program (i : Instr) (s : State) (entry : Word) (prog : List Word) :
    effectOf i { s with params := { s.params with entry := entry, prog := prog } } = effectOf i s := by
  cases i <;> rfl

/-- The delta of an instruction whose form has a destination writes no memory. -/
theorem EffectShape.store_eq_none {s : State} {i : Instr} {d : Delta} {rd : RegIdx}
    (h : EffectShape s i (.ok d)) (hrd : destination i = some rd) : d.store = none := by
  cases h with
  | stores hrd' => cases hrd.symm.trans hrd'
  | writes | moves | prints | exits => rfl

theorem branch_store_eq_none {s : State} {c : Bool} {imm : Word} {d : Delta} (h : s.branch c imm = .ok d) :
    d.store = none := by
  rw [branch_eq] at h
  split at h
  · split at h <;> cases h
    rfl
  · cases h
    rfl

theorem ecall_store_eq_none {s : State} {d : Delta} (h : effectOf .ecall s = .ok d) : d.store = none := by
  obtain ⟨bytes, -, he⟩ | ⟨code, -, he⟩ | ⟨cause, info, -, he⟩ := ecall_cases s <;> rw [he] at h <;> cases h
  · rfl
  · rfl

/-- Only a store's delta writes memory (20_memory.md R60). -/
theorem store_eq_none_of_not_isStore {i : Instr} (hstore : isStore i = false) {s : State} {d : Delta}
    (h : effectOf i s = .ok d) : d.store = none := by
  have hshape : EffectShape s i (.ok d) := h ▸ effectOf_shape i s
  cases i with
  | sb | sh | sw => cases hstore
  | beq | bne | blt | bge | bltu | bgeu => exact branch_store_eq_none h
  | fence => cases h; rfl
  | ecall => exact ecall_store_eq_none h
  | ebreak => cases h
  | lui | auipc | jal | jalr | lb | lh | lw | lbu | lhu | addi | slti | sltiu | xori | ori | andi
  | slli | srli | srai | add | sub | sll | slt | sltu | xor | srl | sra | or | and =>
    exact hshape.store_eq_none rfl

/-- An effect that writes no memory does all else the same whatever the memory holds. -/
theorem apply_mem {e : Effect} (h : ∀ d, e = .ok d → d.store = none) (s : State) (m : List Host.Cell) :
    ({ s with mem := m } : State).apply e = { s.apply e with mem := m } := by
  cases e with
  | error f => rfl
  | ok d => simp only [apply_ok, State.commit, h d rfl]

/-- An effect that writes no memory keeps it. -/
theorem apply_mem_eq {e : Effect} (h : ∀ d, e = .ok d → d.store = none) (s : State) :
    (s.apply e).mem = s.mem := by
  cases e with
  | error f => rfl
  | ok d => exact commit_mem_none s d (h d rfl)

end Sys2Proof.Machine
end

section
/-! The statements about the data memory and the program store (20_memory.md), settled. -/

namespace Sys2Proof.Machine

open Sys2Proof.Claims

/-- Settles O20: a fetch reads the parameters and the PC alone, and no step changes the parameters. -/
theorem storeNeverSeenByFetch : Obligations.StoreNeverSeenByFetch :=
  ⟨fun _ _ h => ⟨step_params h, fun a => by rw [step_params h]⟩, fun _ _ => rfl⟩

/-- Settles O35: after the write the word stands at `a`, and every read within it gives its slice. -/
theorem mixedWidthsSeeTheSameBytes : Obligations.MixedWidthsSeeTheSameBytes := by
  rintro s a v w t hm hbound hw rfl
  have h := holdsWord_of_memWrite hm hbound hw
  have hzero : a + BitVec.ofNat 32 0 = a := BitVec.add_zero a
  exact ⟨hzero ▸ h.memRead8 (by decide), h.memRead8 (k := 1) (by decide), h.memRead8 (k := 2) (by decide),
    h.memRead8 (k := 3) (by decide), hzero ▸ h.memRead16 (by decide), h.memRead16 (k := 2) (by decide),
    h.memRead16 (k := 1) (by decide), h.memRead32⟩

/-- Settles O36: only a store's delta writes memory, and no effect but a load's, a store's or an ECALL's
depends on it. -/
theorem onlyLoadsStoresAndEcallTouchMemory : Obligations.OnlyLoadsStoresAndEcallTouchMemory := by
  intro i s t h
  obtain rfl := exec_next_iff.1 h
  refine ⟨fun hstore => apply_mem_eq (fun _ => store_eq_none_of_not_isStore hstore) s,
    fun hload hstore hecall m => ?_⟩
  rw [exec_eq_apply, effectOf_mem hload hstore hecall,
    apply_mem (fun _ => store_eq_none_of_not_isStore hstore)]

/-- Settles O37: the effect is the same whatever the program is, and applying it reads the program for
`STATUS` alone. -/
theorem noInstructionReadsTheProgram : Obligations.NoInstructionReadsTheProgram := by
  intro i s t prog h
  obtain rfl := exec_next_iff.1 h
  refine ⟨_, exec_eq_apply .., ?_⟩
  rw [effectOf_program]
  cases effectOf i s with
  | error f | ok d => exact ⟨rfl, rfl, rfl, rfl, rfl, rfl⟩

end Sys2Proof.Machine
end

section
/-! SUPPORT. What a word decodes to, said once from the row of the opcode map it selects, and which words
select a row (30_encoding.md R94 to R97). -/

namespace Sys2Proof

open Sys2Proof.Claims

/-! ### The row a word selects (30_encoding.md R95) -/

theorem Row.selects_iff (r : Row) (w : Word) : r.selects w = true ↔ w &&& r.mask = r.matchBits :=
  beq_iff_eq

/-- Two rows that select one word agree on the bits both match, so they are one row. -/
theorem row_eq_of_selects {w : Word} {r r' : Row} (hr : r ∈ opcodeRows) (hr' : r' ∈ opcodeRows)
    (h : r.selects w = true) (h' : r'.selects w = true) : r = r' := by
  rw [Row.selects_iff] at h h'
  refine (rows_differ_where_both_match r hr r' hr').resolve_right fun hne => hne ?_
  calc r.matchBits &&& (r.mask &&& r'.mask)
      = w &&& (r.mask &&& r'.mask) := by
        rw [← h, BitVec.and_assoc, ← BitVec.and_assoc r.mask, BitVec.and_self]
    _ = r'.matchBits &&& (r.mask &&& r'.mask) := by
        rw [← h', BitVec.and_comm r.mask, BitVec.and_assoc, ← BitVec.and_assoc r'.mask, BitVec.and_self]

/-- Some row of the list selects the word. -/
def SelectedBy (rows : List Row) (w : Word) : Prop := ∃ r ∈ rows, r.selects w = true

theorem selectRow_eq_none_iff {w : Word} : selectRow w = none ↔ ¬ SelectedBy opcodeRows w := by
  simp [selectRow, SelectedBy]

theorem selectRow_eq_some_iff {w : Word} {r : Row} :
    selectRow w = some r ↔ r ∈ opcodeRows ∧ r.selects w = true := by
  have hsound : ∀ {r'}, selectRow w = some r' → r' ∈ opcodeRows ∧ r'.selects w = true :=
    fun h => ⟨List.mem_of_find?_eq_some h, List.find?_some (p := fun r : Row => r.selects w) h⟩
  refine ⟨hsound, fun ⟨hr, h⟩ => ?_⟩
  cases hsel : selectRow w with
  | none => exact absurd ⟨r, hr, h⟩ (selectRow_eq_none_iff.1 hsel)
  | some r' =>
    obtain ⟨hr', h'⟩ := hsound hsel
    rw [row_eq_of_selects hr' hr h' h]

/-! ### What the word decodes to (30_encoding.md R94, R96) -/

/-- The record of a word that selects the row. -/
def Row.record (r : Row) (w : Word) : Decoded :=
  ⟨some r.mnemonic, fieldRd w, fieldRs1 w, fieldRs2 w, immOf r.format w⟩

theorem decodeRecord_of_selectRow {w : Word} {r : Row} (h : selectRow w = some r) :
    decodeRecord w = r.record w := by
  simp only [decodeRecord, Row.record, h, Option.map_some]

theorem decode_of_selectRow {w : Word} {r : Row} (h : selectRow w = some r) :
    decode w = .ok (r.mnemonic.toInstr (r.record w)) := by
  rw [decode, decodeRecord_of_selectRow h]
  rfl

theorem decode_of_selects {w : Word} {r : Row} (hr : r ∈ opcodeRows) (h : r.selects w = true) :
    decode w = .ok (r.mnemonic.toInstr (r.record w)) :=
  decode_of_selectRow (selectRow_eq_some_iff.2 ⟨hr, h⟩)

theorem decode_of_selectRow_none {w : Word} (h : selectRow w = none) :
    decode w = .error (.illegalInstruction w) := by
  rw [decode, decodeRecord, h]
  rfl

/-- A word decodes to the instruction of a row that selects it, its operands read from its fields. -/
theorem decode_eq_ok_iff {w : Word} {i : Instr} : decode w = .ok i ↔
    ∃ r ∈ opcodeRows, r.selects w = true ∧ r.mnemonic.toInstr (r.record w) = i := by
  constructor
  · intro h
    cases hsel : selectRow w with
    | none => rw [decode_of_selectRow_none hsel] at h; cases h
    | some r =>
      obtain ⟨hr, hw⟩ := selectRow_eq_some_iff.1 hsel
      rw [decode_of_selectRow hsel] at h
      exact ⟨r, hr, hw, Except.ok.inj h⟩
  · rintro ⟨r, hr, hw, rfl⟩
    exact decode_of_selects hr hw

/-- A word is illegal exactly when it selects no row (30_encoding.md R97). -/
theorem decode_eq_error_iff {w : Word} :
    decode w = .error (.illegalInstruction w) ↔ ¬ SelectedBy opcodeRows w := by
  rw [← selectRow_eq_none_iff]
  refine ⟨fun h => ?_, decode_of_selectRow_none⟩
  cases hsel : selectRow w with
  | none => rfl
  | some r => rw [decode_of_selectRow hsel] at h; cases h

/-! ### Which words each part of the opcode map selects, by opcode, funct3 and funct7 -/

theorem selectedBy_nil (w : Word) : ¬ SelectedBy [] w := by simp [SelectedBy]

theorem selectedBy_cons (r : Row) (rows : List Row) (w : Word) :
    SelectedBy (r :: rows) w ↔ w &&& r.mask = r.matchBits ∨ SelectedBy rows w := by
  simp only [SelectedBy, List.exists_mem_cons_iff, Row.selects_iff]

theorem selectedBy_append (rows rows' : List Row) (w : Word) :
    SelectedBy (rows ++ rows') w ↔ SelectedBy rows w ∨ SelectedBy rows' w := by
  simp only [SelectedBy, List.mem_append, or_and_right, exists_or]

section
variable (w : Word)

theorem selectedBy_upperJump : SelectedBy rowsUpperJump w ↔
    fieldOpcode w ∈ [0b0110111#7, 0b0010111#7, 0b1101111#7] ∨
    fieldOpcode w = 0b1100111#7 ∧ fieldFunct3 w = 0b000#3 := by
  simp (disch := decide) only [rowsUpperJump, selectedBy_cons, selectedBy_nil, or_false, masked7_iff,
    masked3_iff, List.mem_cons, List.not_mem_nil, or_assoc]
  rfl

theorem selectedBy_branch : SelectedBy rowsBranch w ↔
    fieldOpcode w = 0b1100011#7 ∧ fieldFunct3 w ∉ [0b010#3, 0b011#3] := by
  have hf3 : ∀ f3 : BitVec 3, f3 ∉ [0b010#3, 0b011#3] ↔
      f3 = 0#3 ∨ f3 = 1#3 ∨ f3 = 4#3 ∨ f3 = 5#3 ∨ f3 = 6#3 ∨ f3 = 7#3 := by decide
  simp (disch := decide) only [rowsBranch, selectedBy_cons, selectedBy_nil, or_false, masked3_iff, hf3,
    and_or_left]
  rfl

theorem selectedBy_memory : SelectedBy rowsMemory w ↔
    fieldOpcode w = 0b0000011#7 ∧ fieldFunct3 w ∉ [0b011#3, 0b110#3, 0b111#3] ∨
    fieldOpcode w = 0b0100011#7 ∧ fieldFunct3 w ∉ [0b011#3, 0b100#3, 0b101#3, 0b110#3, 0b111#3] := by
  have hload : ∀ f3 : BitVec 3, f3 ∉ [0b011#3, 0b110#3, 0b111#3] ↔
      f3 = 0#3 ∨ f3 = 1#3 ∨ f3 = 2#3 ∨ f3 = 4#3 ∨ f3 = 5#3 := by decide
  have hstore : ∀ f3 : BitVec 3, f3 ∉ [0b011#3, 0b100#3, 0b101#3, 0b110#3, 0b111#3] ↔
      f3 = 0#3 ∨ f3 = 1#3 ∨ f3 = 2#3 := by decide
  simp (disch := decide) only [rowsMemory, selectedBy_cons, selectedBy_nil, or_false, masked3_iff, hload,
    hstore, and_or_left, or_assoc]
  rfl

theorem selectedBy_immediate : SelectedBy rowsImmediate w ↔
    fieldOpcode w = 0b0010011#7 ∧ (fieldFunct3 w = 0b001#3 → fieldFunct7 w = 0b0000000#7) ∧
      (fieldFunct3 w = 0b101#3 → fieldFunct7 w ∈ [0b0000000#7, 0b0100000#7]) := by
  have hf3 : ∀ (f3 : BitVec 3) (a b : Bool), ((f3 = 0b001#3 → a) ∧ (f3 = 0b101#3 → a ∨ b)) ↔
      f3 = 0#3 ∨ f3 = 2#3 ∨ f3 = 3#3 ∨ f3 = 4#3 ∨ f3 = 6#3 ∨ f3 = 7#3 ∨ f3 = 1#3 ∧ a ∨
      f3 = 5#3 ∧ a ∨ f3 = 5#3 ∧ b := by decide
  have hf7 := hf3 (fieldFunct3 w) (fieldFunct7 w = 0b0000000#7) (fieldFunct7 w = 0b0100000#7)
  simp only [decide_eq_true_eq] at hf7
  simp (disch := decide) only [rowsImmediate, selectedBy_cons, selectedBy_nil, or_false, masked3_iff,
    maskedR_iff, List.mem_cons, List.not_mem_nil, hf7, and_or_left]
  rfl

theorem selectedBy_register : SelectedBy rowsRegister w ↔
    fieldOpcode w = 0b0110011#7 ∧ (fieldFunct7 w = 0b0000000#7 ∨
      fieldFunct7 w = 0b0100000#7 ∧ fieldFunct3 w ∈ [0b000#3, 0b101#3]) := by
  have hf3 : ∀ (f3 : BitVec 3) (a b : Bool), (a ∨ b ∧ f3 ∈ [0b000#3, 0b101#3]) ↔
      f3 = 0#3 ∧ a ∨ f3 = 0#3 ∧ b ∨ f3 = 1#3 ∧ a ∨ f3 = 2#3 ∧ a ∨ f3 = 3#3 ∧ a ∨ f3 = 4#3 ∧ a ∨
      f3 = 5#3 ∧ a ∨ f3 = 5#3 ∧ b ∨ f3 = 6#3 ∧ a ∨ f3 = 7#3 ∧ a := by decide
  have hf7 := hf3 (fieldFunct3 w) (fieldFunct7 w = 0b0000000#7) (fieldFunct7 w = 0b0100000#7)
  simp only [decide_eq_true_eq] at hf7
  simp (disch := decide) only [rowsRegister, selectedBy_cons, selectedBy_nil, or_false, maskedR_iff, hf7,
    and_or_left]
  rfl

theorem selectedBy_system : SelectedBy rowsSystem w ↔
    fieldOpcode w = 0b0001111#7 ∧ fieldFunct3 w = 0b000#3 ∨
    fieldOpcode w = 0b1110011#7 ∧ (w = 0x00000073 ∨ w = 0x00100073) := by
  have hall : w &&& 0xffffffff = w := BitVec.and_allOnes
  have hop : w = 0x00000073 ∨ w = 0x00100073 → fieldOpcode w = 0b1110011#7 := by
    rintro (rfl | rfl) <;> rfl
  rw [and_iff_right_of_imp hop]
  simp (disch := decide) only [rowsSystem, selectedBy_cons, selectedBy_nil, or_false, masked3_iff, hall]
  rfl

/-- The conditions of 30_encoding.md R97 are, opcode by opcode, the complement of the opcode map's rows. -/
theorem illegalShape_iff : IllegalShape w ↔ ¬ SelectedBy opcodeRows w := by
  have hop : w.extractLsb' 0 7 = fieldOpcode w := rfl
  have hf3 : w.extractLsb' 12 3 = fieldFunct3 w := rfl
  have hf7 : w.extractLsb' 25 7 = fieldFunct7 w := rfl
  have hlow : w.extractLsb' 0 2 = (fieldOpcode w).extractLsb' 0 2 :=
    (BitVec.extractLsb'_extractLsb'_of_le (by decide)).symm
  simp only [opcodeRows, selectedBy_append, selectedBy_upperJump, selectedBy_branch, selectedBy_memory,
    selectedBy_immediate, selectedBy_register, selectedBy_system, IllegalShape, hop, hf3, hf7, hlow]
  clear hop hf3 hf7 hlow
  generalize fieldOpcode w = op, fieldFunct3 w = f3, fieldFunct7 w = f7
  by_cases hop : op ∈ [0b0110111#7, 0b0010111#7, 0b1101111#7, 0b1100111#7, 0b1100011#7, 0b0000011#7,
      0b0100011#7, 0b0010011#7, 0b0110011#7, 0b0001111#7, 0b1110011#7]
  · have hf7 : f7 = 0b0100000#7 → f7 ≠ 0b0000000#7 := by rintro rfl; decide
    simp only [List.mem_cons, List.not_mem_nil, or_false] at *
    rcases hop with rfl | rfl | rfl | rfl | rfl | rfl | rfl | rfl | rfl | rfl | rfl
    all_goals simp
    all_goals tauto
  · have hnone : ∀ c ∈ _, op ≠ c := fun c hc heq => hop (heq ▸ hc)
    simp only [List.forall_mem_cons] at hnone
    simp [hnone]

end

end Sys2Proof
end

section
/-! SUPPORT. Encoding against decoding: the immediates lie in their formats' ranges, each format puts a word
back together from its fields, and the encoder follows the rows the decoder reads (30_encoding.md R81 to R96). -/

namespace Sys2Proof

/-! ### Slices of words -/

/-- The bits of a sign extension below the sign are those of what was extended. -/
theorem extractLsb'_signExtend {n start len : Nat} (x : BitVec n) (hn : n ≤ 32 := by decide)
    (h : start + len ≤ n := by decide) : (x.signExtend 32).extractLsb' start len = x.extractLsb' start len := by
  ext i hi
  rw [BitVec.getElem_extractLsb', BitVec.getElem_extractLsb', BitVec.getLsbD_signExtend, if_pos (by omega),
    decide_eq_true (by omega), Bool.true_and]

theorem extractLsb'_extractLsb' {n start len start' len' : Nat} (x : BitVec n)
    (h : start' + len' ≤ len := by decide) :
    (x.extractLsb' start len).extractLsb' start' len' = x.extractLsb' (start + start') len' := by
  ext i hi
  rw [BitVec.getElem_extractLsb', BitVec.getElem_extractLsb', BitVec.getLsbD_extractLsb',
    decide_eq_true (by omega), Bool.true_and, Nat.add_assoc]

/-! ### The ranges of the immediates (30_encoding.md R88 to R93) -/

theorem signExtend_range {n : Nat} (x : BitVec n) (hn : n ≤ 32 := by decide) :
    -2 ^ (n - 1) ≤ (x.signExtend 32).toInt ∧ (x.signExtend 32).toInt < 2 ^ (n - 1) := by
  rw [BitVec.toInt_signExtend_of_le hn]
  exact ⟨BitVec.le_toInt x, BitVec.toInt_lt⟩

theorem toInt_emod_two (v : Word) : v.toInt % 2 = v.toNat % 2 := by
  rw [BitVec.toInt_eq_toNat_cond]
  split <;> omega

/-- The sign extension of bits that end in a zero is even, so it stops two short of the power of two. -/
theorem signExtend_append_zero_range {n : Nat} (x : BitVec (n + 1)) (hn : n + 2 ≤ 32 := by decide) :
    -2 ^ (n + 1) ≤ ((x ++ 0#1).signExtend 32).toInt ∧
    ((x ++ 0#1).signExtend 32).toInt ≤ 2 ^ (n + 1) - 2 ∧ ((x ++ 0#1).signExtend 32).toNat % 2 = 0 := by
  obtain ⟨hlo, hhi⟩ := signExtend_range (x ++ 0#1) hn
  have heven : ((x ++ 0#1).signExtend 32).toNat % 2 = 0 := by
    have h : ((x ++ 0#1).signExtend 32).extractLsb' 0 1 = 0#1 := by
      rw [extractLsb'_signExtend _ hn (by omega), BitVec.extractLsb'_append_eq_right]
    simpa using congrArg BitVec.toNat h
  have hparity := toInt_emod_two ((x ++ 0#1).signExtend 32)
  rw [Nat.add_sub_cancel] at hlo hhi
  refine ⟨hlo, ?_, heven⟩
  rw [pow_succ] at hhi ⊢
  omega

theorem wfImm12_signExtend (x : BitVec 12) : wfImm12 (x.signExtend 32) = true := by
  obtain ⟨hlo, hhi⟩ := signExtend_range x
  exact decide_eq_true ⟨hlo, Int.lt_add_one_iff.1 hhi⟩

theorem wfImmB_immB (w : Word) : wfImmB (immB w) = true :=
  decide_eq_true (signExtend_append_zero_range (n := 11) _)

theorem wfImmJ_immJ (w : Word) : wfImmJ (immJ w) = true :=
  decide_eq_true (signExtend_append_zero_range (n := 19) _)

theorem wfImmU_append (x : BitVec 20) : wfImmU (x ++ 0#12) = true := by
  have h : (x ++ 0#12).extractLsb' 0 12 = 0#12 := BitVec.extractLsb'_append_eq_right
  exact decide_eq_true (by simpa using congrArg BitVec.toNat h)

theorem wfShamt_immShamt (w : Word) : wfShamt (immShamt w) = true := by
  refine decide_eq_true ?_
  rw [immShamt, BitVec.zeroExtend_eq_setWidth, BitVec.toNat_setWidth_of_le (by decide)]
  exact BitVec.isLt _

/-! ### A word from its fields (30_encoding.md R82 to R87) -/

section
variable (w : Word)

theorem encR_fields :
    encR (fieldFunct7 w) (fieldRs2 w) (fieldRs1 w) (fieldFunct3 w) (fieldRd w) (fieldOpcode w) = w := by
  apply BitVec.eq_of_toNat_eq
  rw [encR_toNat, fieldFunct7_toNat, fieldRs2_toNat, fieldRs1_toNat, fieldFunct3_toNat, fieldRd_toNat,
    fieldOpcode_toNat]
  omega

theorem immI_high : (immI w).extractLsb' 5 7 = fieldFunct7 w :=
  (extractLsb'_signExtend _).trans (extractLsb'_extractLsb' _)

theorem immI_low : (immI w).extractLsb' 0 5 = fieldRs2 w :=
  (extractLsb'_signExtend _).trans (extractLsb'_extractLsb' _)

theorem encI_fields : encI (immI w) (fieldRs1 w) (fieldFunct3 w) (fieldRd w) (fieldOpcode w) = w := by
  rw [encI_eq_encR, immI_high, immI_low, encR_fields]

theorem immS_high : (immS w).extractLsb' 5 7 = fieldFunct7 w :=
  (extractLsb'_signExtend _).trans BitVec.extractLsb'_append_eq_left

theorem immS_low : (immS w).extractLsb' 0 5 = fieldRd w :=
  (extractLsb'_signExtend _).trans BitVec.extractLsb'_append_eq_right

theorem encS_fields : encS (immS w) (fieldRs2 w) (fieldRs1 w) (fieldFunct3 w) (fieldOpcode w) = w := by
  rw [encS_eq_encR, immS_high, immS_low, encR_fields]

theorem immB_slices :
    (immB w).extractLsb' 12 1 = w.extractLsb' 31 1 ∧ (immB w).extractLsb' 5 6 = w.extractLsb' 25 6 ∧
    (immB w).extractLsb' 1 4 = w.extractLsb' 8 4 ∧ (immB w).extractLsb' 11 1 = w.extractLsb' 7 1 := by
  refine ⟨?_, ?_, ?_, ?_⟩ <;> rw [immB, extractLsb'_signExtend]
  all_goals
    simp (disch := decide) only [BitVec.extractLsb'_append_eq_of_add_le, BitVec.extractLsb'_append_eq_of_le,
      extractLsb'_extractLsb', -Nat.reduceAdd, -Nat.reduceSub]

theorem encB_fields : encB (immB w) (fieldRs2 w) (fieldRs1 w) (fieldFunct3 w) (fieldOpcode w) = w := by
  obtain ⟨h12, h5, h1, h11⟩ := immB_slices w
  rw [encB, h12, h5, h1, h11, fieldRs2, fieldRs1, fieldFunct3, fieldOpcode]
  simp (disch := decide) only [BitVec.extractLsb'_append_extractLsb'_eq_extractLsb', -Nat.reduceAdd]
  exact BitVec.extractLsb'_eq_self

theorem immU_high : (immU w).extractLsb' 12 20 = w.extractLsb' 12 20 := BitVec.extractLsb'_append_eq_left

theorem encU_fields : encU (immU w) (fieldRd w) (fieldOpcode w) = w := by
  rw [encU, immU_high, fieldRd, fieldOpcode]
  simp (disch := decide) only [BitVec.extractLsb'_append_extractLsb'_eq_extractLsb', -Nat.reduceAdd]
  exact BitVec.extractLsb'_eq_self

theorem immJ_slices :
    (immJ w).extractLsb' 20 1 = w.extractLsb' 31 1 ∧ (immJ w).extractLsb' 1 10 = w.extractLsb' 21 10 ∧
    (immJ w).extractLsb' 11 1 = w.extractLsb' 20 1 ∧ (immJ w).extractLsb' 12 8 = w.extractLsb' 12 8 := by
  refine ⟨?_, ?_, ?_, ?_⟩ <;> rw [immJ, extractLsb'_signExtend]
  all_goals
    simp (disch := decide) only [BitVec.extractLsb'_append_eq_of_add_le, BitVec.extractLsb'_append_eq_of_le,
      extractLsb'_extractLsb', -Nat.reduceAdd, -Nat.reduceSub]

theorem encJ_fields : encJ (immJ w) (fieldRd w) (fieldOpcode w) = w := by
  obtain ⟨h20, h1, h11, h12⟩ := immJ_slices w
  rw [encJ, h20, h1, h11, h12, fieldRd, fieldOpcode]
  simp (disch := decide) only [BitVec.extractLsb'_append_extractLsb'_eq_extractLsb', -Nat.reduceAdd]
  exact BitVec.extractLsb'_eq_self

theorem immShamt_low : (immShamt w).extractLsb' 0 5 = fieldRs2 w := by
  rw [immShamt, BitVec.zeroExtend_eq_setWidth, BitVec.extractLsb'_setWidth_of_le (by decide)]
  exact BitVec.extractLsb'_eq_self

theorem encShift_fields : encShift (fieldFunct7 w) (immShamt w) (fieldRs1 w) (fieldFunct3 w) (fieldRd w)
    (fieldOpcode w) = w := by
  rw [encShift, immShamt_low, encR_fields]

end

/-! ### Fields of encoded words -/

section
variable (rs2 rs1 rd : RegIdx) (f3 : BitVec 3) (op : BitVec 7) (imm : Word)

@[simp] theorem fieldRd_encI : fieldRd (encI imm rs1 f3 rd op) = rd := by rw [encI_eq_encR, fieldRd_encR]
@[simp] theorem fieldRs1_encI : fieldRs1 (encI imm rs1 f3 rd op) = rs1 := by rw [encI_eq_encR, fieldRs1_encR]
@[simp] theorem fieldRs1_encS : fieldRs1 (encS imm rs2 rs1 f3 op) = rs1 := by rw [encS_eq_encR, fieldRs1_encR]
@[simp] theorem fieldRs2_encS : fieldRs2 (encS imm rs2 rs1 f3 op) = rs2 := by rw [encS_eq_encR, fieldRs2_encR]
@[simp] theorem fieldRs1_encB : fieldRs1 (encB imm rs2 rs1 f3 op) = rs1 := by rw [encB_eq_encR, fieldRs1_encR]
@[simp] theorem fieldRs2_encB : fieldRs2 (encB imm rs2 rs1 f3 op) = rs2 := by rw [encB_eq_encR, fieldRs2_encR]

end

/-! ### The format of each row (30_encoding.md R95) -/

/-- The format column of the opcode map, by mnemonic. -/
def Mnemonic.format : Mnemonic → Format
  | .lui | .auipc => .u
  | .jal => .j
  | .beq | .bne | .blt | .bge | .bltu | .bgeu => .b
  | .jalr | .lb | .lh | .lw | .lbu | .lhu => .i
  | .sb | .sh | .sw => .s
  | .addi | .slti | .sltiu | .xori | .ori | .andi => .i
  | .slli | .srli | .srai => .shift
  | .add | .sub | .sll | .slt | .sltu | .xor | .srl | .sra | .or | .and => .r
  | .fence | .ecall | .ebreak => .carrier

theorem row_format : ∀ r ∈ opcodeRows, r.format = r.mnemonic.format := by decide

/-- The bits the rows of a format match, FENCE's row apart, which matches fewer (30_encoding.md R100). -/
def Format.mask : Format → Word
  | .u | .j => 0x0000007f
  | .i | .s | .b => 0x0000707f
  | .r | .shift => 0xfe00707f
  | .carrier => 0xffffffff

theorem row_mask : ∀ r ∈ opcodeRows, r.mnemonic ≠ .fence → r.mask = r.format.mask := by decide

theorem row_matchBits_and_mask : ∀ r ∈ opcodeRows, r.matchBits &&& r.mask = r.matchBits := by decide

/-- The immediates a format can carry (30_encoding.md R88 to R93). -/
def Format.admits (f : Format) (imm : Word) : Bool :=
  match f with
  | .i | .s => wfImm12 imm
  | .b => wfImmB imm
  | .u => wfImmU imm
  | .j => wfImmJ imm
  | .shift => wfShamt imm
  | .r | .carrier => true

theorem toInstr_wf (m : Mnemonic) (d : Decoded) : (m.toInstr d).wf = m.format.admits d.imm := by
  cases m <;> rfl

theorem admits_immOf (f : Format) (w : Word) : f.admits (immOf f w) = true := by
  cases f with
  | i | s => exact wfImm12_signExtend _
  | b => exact wfImmB_immB w
  | u => exact wfImmU_append _
  | j => exact wfImmJ_immJ w
  | shift => exact wfShamt_immShamt w
  | r | carrier => rfl

theorem decode_wf {w : Word} {i : Instr} (h : decode w = .ok i) : i.wf = true := by
  obtain ⟨r, hr, -, rfl⟩ := decode_eq_ok_iff.1 h
  rw [toInstr_wf, ← row_format r hr]
  exact admits_immOf r.format w

/-! ### Decoding an encoded instruction -/

theorem Laws.EncodingSelectsRow.of_instr (i : Instr) : Statement i := by
  cases i
  exacts [lui .., auipc .., jal .., jalr .., beq .., bne .., blt .., bge .., bltu .., bgeu .., lb .., lh ..,
    lw .., lbu .., lhu .., sb .., sh .., sw .., addi .., slti .., sltiu .., xori .., ori .., andi .., slli ..,
    srli .., srai .., add .., sub .., sll .., slt .., sltu .., xor .., srl .., sra .., or .., and .., fence,
    ecall, ebreak]

/-- The encoding of an instruction decodes to its mnemonic, on the fields of the encoding. -/
theorem decode_encode_eq_toInstr (i : Instr) : decode (encode i) = .ok (i.mnemonic.toInstr
    ⟨some i.mnemonic, fieldRd (encode i), fieldRs1 (encode i), fieldRs2 (encode i),
      immOf i.mnemonic.format (encode i)⟩) := by
  obtain ⟨r, hr, hm, hsel⟩ := Laws.EncodingSelectsRow.of_instr i
  rw [decode_of_selects hr hsel, Row.record, row_format r hr, hm]

/-- The fields of an encoding are the operands: a format at a time. -/
theorem decode_encode {i : Instr} (hwf : i.wf = true) : decode (encode i) = .ok i := by
  rw [decode_encode_eq_toInstr]
  cases i <;> simp only [Instr.mnemonic, Mnemonic.toInstr, Mnemonic.format, immOf, encode]
  case lui | auipc => rw [fieldRd_encU, immU_encU _ _ _ hwf]
  case jal => rw [fieldRd_encJ, immJ_encJ _ _ _ hwf]
  case beq | bne | blt | bge | bltu | bgeu =>
    rw [fieldRs1_encB, fieldRs2_encB, immB_encB _ _ _ _ _ hwf]
  case jalr | lb | lh | lw | lbu | lhu | addi | slti | sltiu | xori | ori | andi =>
    rw [fieldRd_encI, fieldRs1_encI, immI_encI _ _ _ _ _ hwf]
  case sb | sh | sw => rw [fieldRs1_encS, fieldRs2_encS, immS_encS _ _ _ _ _ hwf]
  case slli | srli | srai =>
    rw [immShamt_encShift _ _ _ _ _ _ hwf, encShift, fieldRd_encR, fieldRs1_encR]
  case add | sub | sll | slt | sltu | xor | srl | sra | or | and =>
    rw [fieldRd_encR, fieldRs1_encR, fieldRs2_encR]

/-! ### Encoding a decoded word -/

/-- The word a row's format makes of a record, the fixed fields taken from the row's match bits. -/
def Row.encodeFields (r : Row) (d : Decoded) : Word :=
  let op := fieldOpcode r.matchBits
  let f3 := fieldFunct3 r.matchBits
  let f7 := fieldFunct7 r.matchBits
  match r.format with
  | .r => encR f7 d.rs2 d.rs1 f3 d.rd op
  | .i => encI d.imm d.rs1 f3 d.rd op
  | .s => encS d.imm d.rs2 d.rs1 f3 op
  | .b => encB d.imm d.rs2 d.rs1 f3 op
  | .u => encU d.imm d.rd op
  | .j => encJ d.imm d.rd op
  | .shift => encShift f7 d.imm d.rs1 f3 d.rd op
  | .carrier => r.matchBits

/-- The encoder's opcode, funct3 and funct7 are those of the decoder's match bits, in every row but FENCE's,
which the encoder gives fields of its own. -/
theorem encode_toInstr : ∀ r ∈ opcodeRows, r.mnemonic ≠ .fence →
    ∀ d : Decoded, encode (r.mnemonic.toInstr d) = r.encodeFields d := by
  simp only [opcodeRows, rowsUpperJump, rowsBranch, rowsMemory, rowsImmediate, rowsRegister, rowsSystem,
    List.cons_append, List.nil_append, List.forall_mem_cons, ne_eq, reduceCtorEq, not_false_eq_true,
    not_true_eq_false, forall_const, IsEmpty.forall_iff, true_and, List.not_mem_nil, implies_true, and_true]
  and_intros
  all_goals exact fun _ => rfl

/-- A word that selects a row has the row's fixed fields, so its own fields put it back together. -/
theorem encodeFields_record {r : Row} (hr : r ∈ opcodeRows) (hfence : r.mnemonic ≠ .fence) {w : Word}
    (hsel : r.selects w = true) : r.encodeFields (r.record w) = w := by
  have hmatch := row_matchBits_and_mask r hr
  rw [Row.selects_iff] at hsel
  rw [row_mask r hr hfence] at hsel hmatch
  cases hformat : r.format <;> simp only [hformat, Format.mask] at hsel hmatch <;>
    simp only [Row.encodeFields, Row.record, hformat, immOf]
  case r =>
    obtain ⟨hop, hf3, hf7⟩ := (maskedR_iff w hmatch).1 hsel
    rw [← hop, ← hf3, ← hf7, encR_fields]
  case shift =>
    obtain ⟨hop, hf3, hf7⟩ := (maskedR_iff w hmatch).1 hsel
    rw [← hop, ← hf3, ← hf7, encShift_fields]
  case i =>
    obtain ⟨hop, hf3⟩ := (masked3_iff w hmatch).1 hsel
    rw [← hop, ← hf3, encI_fields]
  case s =>
    obtain ⟨hop, hf3⟩ := (masked3_iff w hmatch).1 hsel
    rw [← hop, ← hf3, encS_fields]
  case b =>
    obtain ⟨hop, hf3⟩ := (masked3_iff w hmatch).1 hsel
    rw [← hop, ← hf3, encB_fields]
  case u => rw [← (masked7_iff w hmatch).1 hsel, encU_fields]
  case j => rw [← (masked7_iff w hmatch).1 hsel, encJ_fields]
  case carrier => exact hsel.symm.trans BitVec.and_allOnes

theorem encode_of_decode {w : Word} {i : Instr} (h : decode w = .ok i) (hi : i ≠ .fence) : encode i = w := by
  obtain ⟨r, hr, hsel, rfl⟩ := decode_eq_ok_iff.1 h
  have hfence : r.mnemonic ≠ .fence := fun hm => hi (by rw [hm]; rfl)
  rw [encode_toInstr r hr hfence, encodeFields_record hr hfence hsel]

theorem decode_of_fence_fields {w : Word} (hop : fieldOpcode w = 0b0001111#7) (hf3 : fieldFunct3 w = 0b000#3) :
    decode w = .ok .fence := by
  have hsel : Row.selects ⟨.fence, .carrier, 0x0000000f, 0x0000707f⟩ w = true :=
    (Row.selects_iff _ w).2 ((masked3_iff w rfl).2 ⟨hop, hf3⟩)
  exact decode_of_selects (by decide) hsel

end Sys2Proof
end

section
/-! SUPPORT. The step that fetches a word, register writes one after another, and the two parts of the
constant `li` loads (47_step_cycle.md R228, 30_encoding.md R105). -/

namespace Sys2Proof.Machine

open Sys2Proof.Claims

/-! ### The step that fetches a word -/

theorem fetch_eq_some_of_fetches {s : State} {w : Word} (h : Fetches s w) : s.fetch = some w := by
  rw [State.fetch, fetchAt, if_pos ((inRange_iff _ _).2 h.inRange), h.word]

theorem step_eq_runWord_of_fetches {s : State} {w : Word} (h : Fetches s w) : step s = s.runWord w := by
  have hrun := (not_halted_iff s).2 h.running
  rw [step, State.cycle, hrun, fetch_eq_some_of_fetches h]
  rfl

theorem runWord_of_illegal {s : State} {w : Word} (h : decode w = .error (.illegalInstruction w)) :
    s.runWord w = .next (faulted s .illegalInstruction w) := by
  rw [State.runWord, h]
  rfl

/-! ### Register writes -/

theorem exec_lui_regWritten (rd : RegIdx) (imm : Word) (s : State) :
    ∃ t, exec (.lui rd imm) s = .next t ∧ RegWritten s t rd imm :=
  ⟨_, exec_of_ok rfl, commit_regWritten s _ rfl⟩

theorem exec_addi_regWritten (rd rs1 : RegIdx) (imm : Word) (s : State) :
    ∃ t, exec (.addi rd rs1 imm) s = .next t ∧ RegWritten s t rd (s.readReg rs1 + imm) :=
  ⟨_, exec_of_ok rfl, commit_regWritten s _ rfl⟩

/-- Of two writes to one register the second stands. -/
theorem RegWritten.trans {s t u : State} {rd : RegIdx} {v v' : Word} (h : RegWritten s t rd v)
    (h' : RegWritten t u rd v') : RegWritten s u rd v' := by
  intro r
  rw [h' r, h r]
  split
  · rfl
  · split <;> rfl

/-- What is written to register 0 does not matter (10_state.md R21). -/
theorem RegWritten.of_eq {s t : State} {rd : RegIdx} {v v' : Word} (h : RegWritten s t rd v)
    (hv : rd ≠ 0 → v = v') : RegWritten s t rd v' := by
  intro r
  rw [h r]
  split
  · rfl
  · next hzero =>
    split
    · next hdest => exact hv (hdest ▸ hzero)
    · rfl

/-! ### The parts of `li` (30_encoding.md R105) -/

namespace Assembly

/-- Subtracting the sign-extended low part clears the low twelve bits. -/
theorem liHigh_eq_sub (v : Word) : liHigh v = v - liLow v := by
  have hlow : (liLow v).extractLsb' 0 12 = v.extractLsb' 0 12 :=
    (extractLsb'_signExtend _).trans BitVec.extractLsb'_eq_self
  have hmod : (liLow v).toNat % 4096 = v.toNat % 4096 := by simpa using congrArg BitVec.toNat hlow
  have hzero : (v - liLow v).extractLsb' 0 12 = 0#12 := by
    apply BitVec.eq_of_toNat_eq
    rw [BitVec.extractLsb'_toNat, BitVec.toNat_sub]
    simp
    omega
  rw [liHigh, ← hzero, BitVec.extractLsb'_append_extractLsb'_eq_extractLsb' (show 12 = 0 + 12 from rfl)]
  exact BitVec.extractLsb'_eq_self

theorem liHigh_add_liLow (v : Word) : liHigh v + liLow v = v := by
  rw [liHigh_eq_sub, BitVec.sub_add_cancel]

/-- The three expansions of `li`. -/
theorem li_cases (rd : RegIdx) (v : Word) :
    (wfImm12 v = true ∧ li rd v = [.addi rd 0 v]) ∨
    (liHigh v = v ∧ li rd v = [.lui rd (liHigh v)]) ∨
    li rd v = [.lui rd (liHigh v), .addi rd rd (liLow v)] := by
  unfold li
  split
  · next hfits => exact .inl ⟨decide_eq_true hfits, rfl⟩
  · split
    · next hlow => exact .inr (.inl ⟨by rw [liHigh_eq_sub, hlow, sub_zero], rfl⟩)
    · exact .inr (.inr rfl)

theorem li_wf (rd : RegIdx) (v : Word) : ∀ i ∈ li rd v, i.wf = true := by
  have hhigh : wfImmU (liHigh v) = true := wfImmU_append _
  have hlow : wfImm12 (liLow v) = true := wfImm12_signExtend _
  obtain ⟨hfits, h⟩ | ⟨-, h⟩ | h := li_cases rd v <;> rw [h]
  · simpa [Instr.wf] using hfits
  · simpa [Instr.wf] using hhigh
  · simpa [Instr.wf] using ⟨hhigh, hlow⟩

theorem li_length (rd : RegIdx) (v : Word) : (li rd v).length ∈ [1, 2] := by
  obtain ⟨-, h⟩ | ⟨-, h⟩ | h := li_cases rd v <;> rw [h] <;> simp

theorem execAll_li (rd : RegIdx) (v : Word) (s : State) :
    ∃ t, execAll (li rd v) s = .next t ∧ RegWritten s t rd v := by
  obtain ⟨-, h⟩ | ⟨hhigh, h⟩ | h := li_cases rd v <;> rw [h]
  · obtain ⟨t, ht, hw⟩ := exec_addi_regWritten rd 0 v s
    rw [readReg_zero, zero_add] at hw
    exact ⟨t, by simp only [execAll, ht], hw⟩
  · obtain ⟨t, ht, hw⟩ := exec_lui_regWritten rd (liHigh v) s
    exact ⟨t, by simp only [execAll, ht], hhigh ▸ hw⟩
  · obtain ⟨t, ht, hw⟩ := exec_lui_regWritten rd (liHigh v) s
    obtain ⟨u, hu, hw'⟩ := exec_addi_regWritten rd rd (liLow v) t
    refine ⟨u, by simp only [execAll, ht, hu], (hw.trans hw').of_eq fun hrd => ?_⟩
    rw [hw rd, if_neg hrd, if_pos rfl, liHigh_add_liLow]

end Assembly

end Sys2Proof.Machine
end

section
/-! The statements about the encoding (30_encoding.md), settled. -/

namespace Sys2Proof.Machine

open Sys2Proof.Claims

/-- Settles O1: the encoding selects the instruction's row, and its fields are the operands. -/
theorem decodeOfEncodeIsInstruction : Obligations.DecodeOfEncodeIsInstruction := fun _ => decode_encode

/-- Settles O2: a word that selects a row has the row's fixed fields, and the encoder writes those. -/
theorem encodeOfDecodeIsWord : Obligations.EncodeOfDecodeIsWord := fun _ _ => encode_of_decode

/-- Settles O3: FENCE's row looks at opcode and funct3 alone, and any other instruction has one word. -/
theorem onlyFenceIgnoresBits : Obligations.OnlyFenceIgnoresBits :=
  ⟨fun _ => decode_of_fence_fields, fun _ _ _ h h' hi => (encode_of_decode h hi).symm.trans (encode_of_decode h' hi)⟩

/-- Settles O4, format by format. -/
theorem decodedInstructionIsWellFormed : Obligations.DecodedInstructionIsWellFormed := fun _ _ => decode_wf

/-- Settles O6: any two rows differ in a bit that both match. -/
theorem opcodeRowsPairwiseDisjoint : Obligations.OpcodeRowsPairwiseDisjoint :=
  ⟨rfl, fun _ _ _ => row_eq_of_selects⟩

/-- Settles O7: the listed conditions are the complement of the opcode map, and a step that fetches a word
which selects no row takes the fault. -/
theorem illegalWordsAreExactlyTheListedAndFault : Obligations.IllegalWordsAreExactlyTheListedAndFault := by
  have hiff : ∀ w : Word, decode w = .error (.illegalInstruction w) ↔ IllegalShape w :=
    fun w => decode_eq_error_iff.trans (illegalShape_iff w).symm
  refine ⟨hiff, fun s w hfetch hill => ?_⟩
  rw [step_eq_runWord_of_fetches hfetch, runWord_of_illegal ((hiff w).2 hill)]

/-- Settles O53: the two parts of `v` add up to it, whichever of the three expansions is taken. -/
theorem liExpansionLoadsTheConstant : Obligations.LiExpansionLoadsTheConstant :=
  fun rd v s => ⟨Assembly.li_wf rd v, Assembly.li_length rd v, Assembly.execAll_li rd v s⟩

end Sys2Proof.Machine
end

section
/-! SUPPORT. The instructions that write one ALU result to `x[rd]` and advance (40_arith_logic.md R134):
the logical functions bit by bit, the write with its frame, and each shape of statement from its row of the
opcode map. -/

namespace Sys2Proof.Machine

open Sys2Proof.Claims

/-! ### The logical functions, bit by bit (00_scope.md R10) -/

section
variable (a b : Word) (k : Nat)

theorem aluAnd_getLsbD : (aluAnd a b).getLsbD k = (a.getLsbD k && b.getLsbD k) := BitVec.getLsbD_and

theorem aluOr_getLsbD : (aluOr a b).getLsbD k = (a.getLsbD k || b.getLsbD k) := BitVec.getLsbD_or

theorem aluXor_getLsbD : (aluXor a b).getLsbD k = (a.getLsbD k != b.getLsbD k) := BitVec.getLsbD_xor

end

/-! ### Decoding and executing -/

/-- A word with the match bits of a row decodes to the row's instruction on the word's fields. -/
theorem decode_of_masked {w : Word} {r : Row} (hr : r ∈ opcodeRows) (hw : w &&& r.mask = r.matchBits) :
    decode w = .ok (r.mnemonic.toInstr (r.record w)) :=
  decode_of_selects hr ((Row.selects_iff r w).2 hw)

/-- A word that is the encoding of a well-formed instruction decodes to it. -/
theorem decode_of_encode_eq {i : Instr} {w : Word} (hwf : i.wf = true) (hw : encode i = w) :
    decode w = .ok i :=
  hw ▸ decode_encode hwf

/-- An instruction whose effect is a register write writes that register, advances the PC and changes
nothing else (40_arith_logic.md R134). -/
theorem exec_of_effectOf_eq_writeRd {i : Instr} {s : State} {rd : RegIdx} {v : Word}
    (h : effectOf i s = s.writeRd rd v) :
    ∃ t, exec i s = .next t ∧ RegWritten s t rd v ∧ MemKept s t ∧ MovesTo s t (s.pc + 4) :=
  ⟨_, exec_of_ok h, commit_regWritten s _ rfl, commit_memKept s _ rfl, commit_movesTo s _ rfl rfl rfl⟩

/-! ### The shapes of statement -/

section
variable {m : Mnemonic} {matchBits : Word} {result : Word → Word → Word → Prop} {f : Word → Word → Word}

/-- A register-register statement, from the row, the effect and what is said of the function `f` it writes. -/
theorem regReg_of_row {mk : RegIdx → RegIdx → RegIdx → Instr}
    (hrow : ⟨m, .r, matchBits, 0xfe00707f⟩ ∈ opcodeRows) (hmk : ∀ d : Decoded, m.toInstr d = mk d.rd d.rs1 d.rs2)
    (heffect : ∀ rd rs1 rs2 s, effectOf (mk rd rs1 rs2) s = s.writeRd rd (f (s.readReg rs1) (s.readReg rs2)))
    (hresult : ∀ a b, result a b (f a b)) : RegReg matchBits mk result := by
  refine ⟨fun w hw => ?_, fun rd rs1 rs2 s => ?_⟩
  · rw [decode_of_masked hrow hw, hmk]
    rfl
  · obtain ⟨t, ht, hframe⟩ := exec_of_effectOf_eq_writeRd (heffect rd rs1 rs2 s)
    exact ⟨t, _, ht, hresult _ _, hframe⟩

/-- A register-immediate statement, from the row, the effect and what is said of the function `f` it writes. -/
theorem regImm_of_row {mk : RegIdx → RegIdx → Word → Instr}
    (hrow : ⟨m, .i, matchBits, 0x0000707f⟩ ∈ opcodeRows) (hmk : ∀ d : Decoded, m.toInstr d = mk d.rd d.rs1 d.imm)
    (heffect : ∀ rd rs1 imm s, effectOf (mk rd rs1 imm) s = s.writeRd rd (f (s.readReg rs1) imm))
    (hresult : ∀ a b, result a b (f a b)) : RegImm matchBits mk result := by
  refine ⟨fun w hw => ?_, fun rd rs1 imm s => ?_⟩
  · rw [decode_of_masked hrow hw, hmk]
    rfl
  · obtain ⟨t, ht, hframe⟩ := exec_of_effectOf_eq_writeRd (heffect rd rs1 imm s)
    exact ⟨t, _, ht, hresult _ _, hframe⟩

end

end Sys2Proof.Machine
end

section
/-! The statements about arithmetic and logic (40_arith_logic.md), settled. -/

namespace Sys2Proof.Machine

open Sys2Proof.Claims

/-- Settles O23: each row's effect writes its ALU function of the two registers. -/
theorem registerArithmeticAndLogic : Obligations.RegisterArithmeticAndLogic :=
  ⟨regReg_of_row (m := .add) (by decide) (fun _ => rfl) (fun _ _ _ _ => rfl) aluAdd_toNat,
    regReg_of_row (m := .sub) (by decide) (fun _ => rfl) (fun _ _ _ _ => rfl) aluSub_toNat,
    regReg_of_row (m := .and) (by decide) (fun _ => rfl) (fun _ _ _ _ => rfl) aluAnd_getLsbD,
    regReg_of_row (m := .or) (by decide) (fun _ => rfl) (fun _ _ _ _ => rfl) aluOr_getLsbD,
    regReg_of_row (m := .xor) (by decide) (fun _ => rfl) (fun _ _ _ _ => rfl) aluXor_getLsbD⟩

/-- Settles O24: each row's effect writes its ALU function of the register and the immediate. -/
theorem immediateArithmeticAndLogic : Obligations.ImmediateArithmeticAndLogic :=
  ⟨regImm_of_row (m := .addi) (by decide) (fun _ => rfl) (fun _ _ _ _ => rfl) aluAdd_toNat,
    regImm_of_row (m := .andi) (by decide) (fun _ => rfl) (fun _ _ _ _ => rfl) aluAnd_getLsbD,
    regImm_of_row (m := .ori) (by decide) (fun _ => rfl) (fun _ _ _ _ => rfl) aluOr_getLsbD,
    regImm_of_row (m := .xori) (by decide) (fun _ => rfl) (fun _ _ _ _ => rfl) aluXor_getLsbD⟩

/-- Settles O5: every word but FENCE's is the encoding of its instruction, and FENCE's has the two fields
its row looks at. -/
theorem sampleWordsDecode : Obligations.SampleWordsDecode := by
  refine ⟨?add, ?sub, ?addi, ?lui, ?srai, ?sltiu, ?beq, ?jal, ?jalr, ?lw, ?sw, ?fence, ?ecall, ?ebreak⟩
  case fence => exact decode_of_fence_fields rfl rfl
  all_goals exact decode_of_encode_eq (by decide) (by decide)

/-- Settles O25: both rows carry the U immediate, and both effects are a register write. -/
theorem upperImmediates : Obligations.UpperImmediates :=
  ⟨fun _ hw => decode_of_masked (r := ⟨.lui, .u, 0x00000037, 0x0000007f⟩) (by decide) hw,
    fun _ hw => decode_of_masked (r := ⟨.auipc, .u, 0x00000017, 0x0000007f⟩) (by decide) hw,
    fun _ _ _ => exec_of_effectOf_eq_writeRd rfl,
    fun _ _ _ => exec_of_effectOf_eq_writeRd rfl⟩

end Sys2Proof.Machine
end

section
/-! SUPPORT. The immediate shifts: the shape of statement from a row of the opcode map, said of the shift
amount of the operand word (41_shifts.md R140). -/

namespace Sys2Proof.Machine

open Sys2Proof.Claims

/-- An immediate shift's statement, from the row, the effect and what is said of the function `f` it writes:
the field `iw[24:20]` is the shift amount of the word it is extended to. -/
theorem regShift_of_row {m : Mnemonic} {matchBits : Word} {result : Word → Nat → Word → Prop}
    {f : Word → Word → Word} {mk : RegIdx → RegIdx → Word → Instr}
    (hrow : ⟨m, .shift, matchBits, 0xfe00707f⟩ ∈ opcodeRows)
    (hmk : ∀ d : Decoded, m.toInstr d = mk d.rd d.rs1 d.imm)
    (heffect : ∀ rd rs1 imm s, effectOf (mk rd rs1 imm) s = s.writeRd rd (f (s.readReg rs1) imm))
    (hresult : ∀ a b, result a (shiftAmount b) (f a b)) : RegShift matchBits mk result := by
  refine ⟨fun w hw => ?_, fun rd rs1 shamt s => ?_⟩
  · rw [decode_of_masked hrow hw, hmk]
    rfl
  · obtain ⟨t, ht, hframe⟩ := exec_of_effectOf_eq_writeRd (heffect rd rs1 (shamt.zeroExtend 32) s)
    have hv := hresult (s.readReg rs1) (shamt.zeroExtend 32)
    rw [shiftAmount_zeroExtend] at hv
    exact ⟨t, _, ht, hv, hframe⟩

end Sys2Proof.Machine
end

section
/-! The statement about the shifts (41_shifts.md), settled. -/

namespace Sys2Proof.Machine

open Sys2Proof.Claims

/-- Settles O26: each row's effect writes its ALU shift, whose amount is the low five bits of the second
operand, and those of the extended field are the field. -/
theorem shiftsByLowFiveBits : Obligations.ShiftsByLowFiveBits :=
  ⟨regReg_of_row (m := .sll) (by decide) (fun _ => rfl) (fun _ _ _ _ => rfl)
      (fun a b => shiftAmount_eq b ▸ aluSll_toNat a b),
    regReg_of_row (m := .srl) (by decide) (fun _ => rfl) (fun _ _ _ _ => rfl)
      (fun a b => shiftAmount_eq b ▸ aluSrl_toNat a b),
    regReg_of_row (m := .sra) (by decide) (fun _ => rfl) (fun _ _ _ _ => rfl)
      (fun a b => shiftAmount_eq b ▸ aluSra_toInt a b),
    regShift_of_row (m := .slli) (by decide) (fun _ => rfl) (fun _ _ _ _ => rfl) aluSll_toNat,
    regShift_of_row (m := .srli) (by decide) (fun _ => rfl) (fun _ _ _ _ => rfl) aluSrl_toNat,
    regShift_of_row (m := .srai) (by decide) (fun _ => rfl) (fun _ _ _ _ => rfl) aluSra_toInt⟩

end Sys2Proof.Machine
end

section
/-! SUPPORT. The comparisons (42_compare.md R151 to R154): what each ALU function writes, as a relation
between the condition and the word. -/

namespace Sys2Proof.Machine

open Sys2Proof.Claims

theorem isOneIff_ite (c : Prop) [Decidable c] : IsOneIff c (if c then 1 else 0) :=
  ⟨fun h => if_pos h, fun h => if_neg h⟩

theorem aluSlt_isOneIff (a b : Word) : IsOneIff (a.toInt < b.toInt) (aluSlt a b) := by
  rw [aluSlt_eq]
  exact isOneIff_ite _

theorem aluSltu_isOneIff (a b : Word) : IsOneIff (a.toNat < b.toNat) (aluSltu a b) := by
  rw [aluSltu_eq]
  exact isOneIff_ite _

end Sys2Proof.Machine
end

section
/-! The statement about the comparisons (42_compare.md), settled. -/

namespace Sys2Proof.Machine

open Sys2Proof.Claims

/-- Settles O27: each row's effect writes its ALU comparison of the two operands, and the immediate forms
use the same two functions as the register forms. -/
theorem setLessThan : Obligations.SetLessThan :=
  ⟨regReg_of_row (m := .slt) (by decide) (fun _ => rfl) (fun _ _ _ _ => rfl) aluSlt_isOneIff,
    regReg_of_row (m := .sltu) (by decide) (fun _ => rfl) (fun _ _ _ _ => rfl) aluSltu_isOneIff,
    regImm_of_row (m := .slti) (by decide) (fun _ => rfl) (fun _ _ _ _ => rfl) aluSlt_isOneIff,
    regImm_of_row (m := .sltiu) (by decide) (fun _ => rfl) (fun _ _ _ _ => rfl) aluSltu_isOneIff⟩

end Sys2Proof.Machine
end

section
/-! SUPPORT. The branches (43_branches.md R160): the conditions as relations of the two registers, the
transfer with its frame, and the shape of statement from a row of the opcode map. -/

namespace Sys2Proof.Machine

open Sys2Proof.Claims

/-! ### The conditions (00_scope.md R10) -/

section
variable (a b : Word)

theorem cmpEq_iff : cmpEq a b = true ↔ a = b := beq_iff_eq

theorem cmpLt_iff : cmpLt a b = true ↔ a.toInt < b.toInt := decide_eq_true_iff

theorem cmpLtu_iff : cmpLtu a b = true ↔ a.toNat < b.toNat := decide_eq_true_iff

end

/-! ### The three effects of a branch -/

section
variable {s : State} {c : Bool} {imm : Word}

theorem branch_of_not_taken (hc : ¬ c = true) : s.branch c imm = .ok { nextPc := s.pc + 4 } := by
  rw [branch_eq, if_neg hc]

theorem branch_of_taken_aligned (hc : c = true) (ht : (s.pc + imm).toNat % 4 = 0) :
    s.branch c imm = .ok { nextPc := s.pc + imm } := by
  rw [branch_eq, if_pos hc, if_pos ht]

theorem branch_of_taken_misaligned (hc : c = true) (ht : (s.pc + imm).toNat % 4 ≠ 0) :
    s.branch c imm = .error ⟨.misalignedTarget, s.pc + imm⟩ := by
  rw [branch_eq, if_pos hc, if_neg ht]

end

/-- An instruction whose effect is a transfer to `target` moves the PC there and changes no register and no
memory. -/
theorem exec_of_effectOf_eq_transfer {i : Instr} {s : State} {target : Word}
    (h : effectOf i s = .ok { nextPc := target }) :
    ∃ t, exec i s = .next t ∧ RegsKept s t ∧ MemKept s t ∧ MovesTo s t target :=
  ⟨_, exec_of_ok h, commit_regsKept s _ rfl, commit_memKept s _ rfl, commit_movesTo s _ rfl rfl rfl⟩

/-! ### The shape of statement -/

/-- A branch's statement, from the row, the effect and what the comparison `f` it tests decides. -/
theorem branch_of_row {m : Mnemonic} {matchBits : Word} {cond : Word → Word → Prop} {f : Word → Word → Bool}
    {mk : RegIdx → RegIdx → Word → Instr}
    (hrow : ⟨m, .b, matchBits, 0x0000707f⟩ ∈ opcodeRows) (hmk : ∀ d : Decoded, m.toInstr d = mk d.rs1 d.rs2 d.imm)
    (heffect : ∀ rs1 rs2 imm s, effectOf (mk rs1 rs2 imm) s = s.branch (f (s.readReg rs1) (s.readReg rs2)) imm)
    (hcond : ∀ a b, f a b = true ↔ cond a b) : Branch matchBits mk cond := by
  refine ⟨fun w hw => ?decodes, fun rs1 rs2 imm s => ?executes⟩
  case decodes =>
    rw [decode_of_masked hrow hw, hmk]
    rfl
  case executes =>
    have he := heffect rs1 rs2 imm s
    rw [← hcond]
    exact ⟨fun hc => exec_of_effectOf_eq_transfer (he.trans (branch_of_not_taken hc)),
      fun hc ht => exec_of_effectOf_eq_transfer (he.trans (branch_of_taken_aligned hc ht)),
      fun hc ht => exec_of_error (he.trans (branch_of_taken_misaligned hc ht))⟩

end Sys2Proof.Machine
end

section
/-! The statement about the branches (43_branches.md), settled. -/

namespace Sys2Proof.Machine

open Sys2Proof.Claims

/-- Settles O28: each row's effect is a branch on one of the three comparisons or its negation. -/
theorem branchesFollowTheirCondition : Obligations.BranchesFollowTheirCondition :=
  ⟨branch_of_row (m := .beq) (by decide) (fun _ => rfl) (fun _ _ _ _ => rfl) cmpEq_iff,
    branch_of_row (m := .bne) (by decide) (fun _ => rfl) (fun _ _ _ _ => rfl)
      (fun a b => Bool.not_iff_not.trans (cmpEq_iff a b).not),
    branch_of_row (m := .blt) (by decide) (fun _ => rfl) (fun _ _ _ _ => rfl) cmpLt_iff,
    branch_of_row (m := .bge) (by decide) (fun _ => rfl) (fun _ _ _ _ => rfl)
      (fun a b => Bool.not_iff_not.trans (cmpLt_iff a b).not),
    branch_of_row (m := .bltu) (by decide) (fun _ => rfl) (fun _ _ _ _ => rfl) cmpLtu_iff,
    branch_of_row (m := .bgeu) (by decide) (fun _ => rfl) (fun _ _ _ _ => rfl)
      (fun a b => Bool.not_iff_not.trans (cmpLtu_iff a b).not)⟩

end Sys2Proof.Machine
end

section
/-! SUPPORT. The jumps (44_jumps.md R170 to R172): the target's alignment from its bits, and the jump with
its frame. -/

namespace Sys2Proof.Machine

open Sys2Proof.Claims

/-! ### The low bits of a target -/

section
variable (v : Word)

theorem getLsbD_zero_eq_false_iff : v.getLsbD 0 = false ↔ v.toNat % 2 = 0 := by
  simp [BitVec.getLsbD, Nat.testBit_zero]

theorem getLsbD_one_eq_true_iff : v.getLsbD 1 = true ↔ v.toNat / 2 % 2 = 1 := by
  simp [BitVec.getLsbD, Nat.testBit_succ]

/-- With bit 0 cleared, bit 1 alone decides the alignment of JALR's target (44_jumps.md R172). -/
theorem clearBit0_aligned_iff : (v &&& (0xfffffffe : Word)).toNat % 4 = 0 ↔ v.getLsbD 1 = false := by
  rw [clearBit0_toNat, ← Bool.not_eq_true, getLsbD_one_eq_true_iff]
  omega

end

/-- From an aligned PC with an even immediate, `imm[1]` alone decides the alignment of JAL's target
(44_jumps.md R171). -/
theorem pcRelative_misaligned_iff {pc imm : Word} (hpc : pc.toNat % 4 = 0) (himm : imm.getLsbD 0 = false) :
    (pc + imm).toNat % 4 ≠ 0 ↔ imm.getLsbD 1 = true := by
  rw [getLsbD_zero_eq_false_iff] at himm
  rw [getLsbD_one_eq_true_iff, BitVec.toNat_add]
  omega

/-! ### The two effects of a jump -/

section
variable {i : Instr} {s : State} {rd : RegIdx} {target : Word} (h : effectOf i s = s.jump rd target)
include h

/-- An instruction whose effect is a jump to an aligned target links, goes there and changes nothing else
(44_jumps.md R170). -/
theorem exec_of_effectOf_eq_jump_aligned (ht : target.toNat % 4 = 0) :
    ∃ t, exec i s = .next t ∧ RegWritten s t rd (s.pc + 4) ∧ MemKept s t ∧ MovesTo s t target := by
  rw [jump_eq, if_pos ht] at h
  exact ⟨_, exec_of_ok h, commit_regWritten s _ rfl, commit_memKept s _ rfl, commit_movesTo s _ rfl rfl rfl⟩

/-- To any other target it faults, and neither links nor moves (44_jumps.md R173). -/
theorem exec_of_effectOf_eq_jump_misaligned (ht : target.toNat % 4 ≠ 0) :
    exec i s = .next (faulted s .misalignedTarget target) := by
  rw [jump_eq, if_neg ht] at h
  exact exec_of_error h

end

end Sys2Proof.Machine
end

section
/-! SUPPORT. The faults of an instruction: the causes it may raise (60_exceptions.md R253), and that
`MisalignedTarget` is raised exactly by a transfer to a target that is not a multiple of 4. -/

namespace Sys2Proof.Machine

open Sys2Proof.Claims

section
variable {s : State} {f : FaultRecord}

/-! ### What each shape of effect faults with -/

/-- A checked effect faults exactly when its check fails, and with the fault of the check. -/
theorem ite_eq_error_iff {c : Prop} [Decidable c] {d : Delta} {g : FaultRecord} :
    (if c then .ok d else .error g : Effect) = .error f ↔ ¬ c ∧ f = g := by
  by_cases h : c <;> simp [h, eq_comm]

theorem branch_eq_error_iff {c : Bool} {imm : Word} : s.branch c imm = .error f ↔
    c = true ∧ (s.pc + imm).toNat % 4 ≠ 0 ∧ f = ⟨.misalignedTarget, s.pc + imm⟩ := by
  rw [branch_eq]
  cases c with
  | false => exact ⟨nofun, nofun⟩
  | true => rw [if_pos rfl, ite_eq_error_iff, eq_self, true_and]

theorem jump_eq_error_iff {rd : RegIdx} {target : Word} : s.jump rd target = .error f ↔
    target.toNat % 4 ≠ 0 ∧ f = ⟨.misalignedTarget, target⟩ := by
  rw [jump_eq, ite_eq_error_iff]

/-- A load faults only for its access (45_loads_stores.md R190). -/
theorem load_error_cause {rd : RegIdx} {ea v : Word} {n : Nat} {r : Except FaultRecord Word}
    (hr : r = if ea.toNat + n ≤ s.params.memBound then .ok v else .error ⟨.memoryFault, ea⟩)
    (h : s.load rd r = .error f) : f.cause = .memoryFault := by
  rw [load_eq_ite s rd ea v n r hr, ite_eq_error_iff] at h
  rw [h.2]

/-- A store faults only for its access (45_loads_stores.md R190). -/
theorem store_error_cause {ea : Word} {bs : List Byte} (h : s.store ea bs = .error f) :
    f.cause = .memoryFault := by
  rw [store_eq, ite_eq_error_iff] at h
  rw [h.2]

theorem envCause_mem (cause : EnvCause) : envCause cause ∈ [Cause.unsupportedSyscall, .memoryFault] := by
  cases cause <;> decide

/-- An ECALL faults only with the cause its environment names (46_system.md R203). -/
theorem ecall_error_mayRaise (h : effectOf .ecall s = .error f) : mayRaise s .ecall f.cause := by
  obtain ⟨bytes, -, he⟩ | ⟨code, -, he⟩ | ⟨cause, info, henv, he⟩ := ecall_cases s <;> rw [he] at h <;> cases h
  exact ⟨⟨cause, info, henv, rfl⟩, envCause_mem cause⟩

/-- An instruction faults only with a cause the table of 60_exceptions.md R253 allows it. -/
theorem effectOf_error_mayRaise {i : Instr} (h : effectOf i s = .error f) : mayRaise s i f.cause := by
  cases i with
  | beq | bne | blt | bge | bltu | bgeu =>
    obtain ⟨-, -, rfl⟩ := branch_eq_error_iff.1 h
    rfl
  | jal | jalr =>
    obtain ⟨-, rfl⟩ := jump_eq_error_iff.1 h
    rfl
  | lb => exact load_error_cause (loadS8_eq ..) h
  | lh => exact load_error_cause (loadS16_eq ..) h
  | lw => exact load_error_cause (load32_eq ..) h
  | lbu => exact load_error_cause (loadU8_eq ..) h
  | lhu => exact load_error_cause (loadU16_eq ..) h
  | sb | sh | sw => exact store_error_cause h
  | ecall => exact ecall_error_mayRaise h
  | ebreak => cases h; rfl
  | lui | auipc | addi | slti | sltiu | xori | ori | andi | slli | srli | srai
  | add | sub | sll | slt | sltu | xor | srl | sra | or | and | fence => cases h

/-- An instruction that ends in `HALT_ERR` with a record took the fault of that record. -/
theorem effectOf_eq_error_of_halted {i : Instr} {u : State} (h : exec i s = .next u) (herr : u.status = .haltErr)
    (hf : u.fault = some f) : effectOf i s = .error f := by
  obtain rfl := exec_next_iff.1 h
  cases he : effectOf i s with
  | error g =>
    rw [he] at hf
    exact congrArg Except.error (Option.some.inj hf)
  | ok d =>
    rw [he] at herr
    exact absurd herr (commit_status_ne_haltErr s d)

end

/-! ### Misaligned targets (44_jumps.md R173) -/

section
variable {s : State} {t : Word}

/-- The record of a misaligned `target` names `t` exactly when `t` is that target. -/
theorem misaligned_record_iff {target : Word} :
    (target.toNat % 4 ≠ 0 ∧ (⟨.misalignedTarget, t⟩ : FaultRecord) = ⟨.misalignedTarget, target⟩) ↔
      some target = some t ∧ t.toNat % 4 ≠ 0 := by
  constructor
  · rintro ⟨ht, ⟨⟩⟩
    exact ⟨rfl, ht⟩
  · rintro ⟨⟨⟩, ht⟩
    exact ⟨ht, rfl⟩

/-- A branch faults exactly when its condition holds and its target is misaligned. -/
theorem branch_misaligned_iff {c : Bool} {imm : Word} {cond : Prop} [Decidable cond] (hc : c = true ↔ cond) :
    s.branch c imm = .error ⟨.misalignedTarget, t⟩ ↔
      (if cond then some (s.pc + imm) else none) = some t ∧ t.toNat % 4 ≠ 0 := by
  rw [branch_eq_error_iff, hc, misaligned_record_iff]
  split
  · next htaken => exact and_iff_right htaken
  · next hnot => exact ⟨fun h => absurd h.1 hnot, fun h => nomatch h.1⟩

/-- A jump faults exactly when its target is misaligned. -/
theorem jump_misaligned_iff {rd : RegIdx} {target : Word} :
    s.jump rd target = .error ⟨.misalignedTarget, t⟩ ↔ some target = some t ∧ t.toNat % 4 ≠ 0 :=
  jump_eq_error_iff.trans misaligned_record_iff

/-- What may not raise `MisalignedTarget` does not, and takes no transfer. -/
theorem misaligned_iff_of_not_mayRaise {i : Instr} (hcause : ¬ mayRaise s i .misalignedTarget)
    (hnone : takenTarget s i = none) :
    effectOf i s = .error ⟨.misalignedTarget, t⟩ ↔ takenTarget s i = some t ∧ t.toNat % 4 ≠ 0 := by
  rw [hnone]
  exact ⟨fun h => absurd (effectOf_error_mayRaise h) hcause, fun h => nomatch h.1⟩

theorem ecall_not_mayRaise_misaligned : ¬ mayRaise s .ecall .misalignedTarget :=
  fun h => absurd h.2 (by decide)

/-- An instruction raises `MisalignedTarget` exactly for the misaligned target of a transfer it takes. -/
theorem effectOf_misaligned_iff (i : Instr) :
    effectOf i s = .error ⟨.misalignedTarget, t⟩ ↔ takenTarget s i = some t ∧ t.toNat % 4 ≠ 0 := by
  cases i with
  | beq => exact branch_misaligned_iff (cmpEq_iff ..)
  | bne => exact branch_misaligned_iff (Bool.not_iff_not.trans (cmpEq_iff ..).not)
  | blt => exact branch_misaligned_iff (cmpLt_iff ..)
  | bge => exact branch_misaligned_iff (Bool.not_iff_not.trans ((cmpLt_iff ..).not.trans not_lt))
  | bltu => exact branch_misaligned_iff (cmpLtu_iff ..)
  | bgeu => exact branch_misaligned_iff (Bool.not_iff_not.trans ((cmpLtu_iff ..).not.trans not_lt))
  | jal | jalr => exact jump_misaligned_iff
  | ecall => exact misaligned_iff_of_not_mayRaise ecall_not_mayRaise_misaligned rfl
  | lb | lh | lw | lbu | lhu | sb | sh | sw | ebreak | lui | auipc | addi | slti | sltiu | xori | ori | andi
  | slli | srli | srai | add | sub | sll | slt | sltu | xor | srl | sra | or | and | fence =>
    exact misaligned_iff_of_not_mayRaise nofun rfl

end

end Sys2Proof.Machine
end

section
/-! The statements about the jumps (44_jumps.md), settled. -/

namespace Sys2Proof.Machine

open Sys2Proof.Claims

/-- Settles O29: the row carries the J immediate, and the effect is a jump to `pc + imm`. -/
theorem jumpAndLink : Obligations.JumpAndLink :=
  ⟨fun _ hw => decode_of_masked (r := ⟨.jal, .j, 0x0000006f, 0x0000007f⟩) (by decide) hw,
    fun _ _ _ => ⟨exec_of_effectOf_eq_jump_aligned rfl, exec_of_effectOf_eq_jump_misaligned rfl,
      pcRelative_misaligned_iff⟩⟩

/-- Settles O30: the effect is a jump to the sum with bit 0 cleared, whose alignment is bit 1 of the sum. -/
theorem jumpAndLinkRegister : Obligations.JumpAndLinkRegister := by
  refine ⟨fun _ hw => decode_of_masked (r := ⟨.jalr, .i, 0x00000067, 0x0000707f⟩) (by decide) hw, ?_⟩
  rintro rd rs1 imm t s rfl
  have haligned := clearBit0_aligned_iff (s.readReg rs1 + imm)
  refine ⟨fun hbit => exec_of_effectOf_eq_jump_aligned rfl (haligned.2 hbit),
    fun hbit => exec_of_effectOf_eq_jump_misaligned (rd := rd) rfl fun ht => ?_⟩
  rw [haligned.1 ht] at hbit
  cases hbit

/-- Settles O31: an instruction that ends in `HALT_ERR` took its effect's fault, and the effect is
`MisalignedTarget` exactly for the misaligned target of a transfer. -/
theorem misalignedTargetFaultsExactly : Obligations.MisalignedTargetFaultsExactly := by
  intro i s
  refine ⟨fun t htaken ht => exec_of_error ((effectOf_misaligned_iff i).2 ⟨htaken, ht⟩), ?_⟩
  rintro u hu herr ⟨⟨cause, info⟩, hf, rfl⟩
  exact ⟨info, (effectOf_misaligned_iff i).1 (effectOf_eq_error_of_halted hu herr hf)⟩

end Sys2Proof.Machine
end

section
/-! SUPPORT. The loads and stores (45_loads_stores.md R180, R190): each access admitted or refused, with its
frame, and the two shapes of statement from a row of the opcode map. -/

namespace Sys2Proof.Machine

open Sys2Proof.Claims

/-! ### An access below the bound, and one past it (20_memory.md R53) -/

section
variable {i : Instr} {s : State} {rd : RegIdx} {ea v : Word} {n : Nat} {r : Except FaultRecord Word}
  (h : effectOf i s = s.load rd r)
  (hr : r = if ea.toNat + n ≤ s.params.memBound then .ok v else .error ⟨.memoryFault, ea⟩)
include h hr

/-- An instruction whose effect is an admitted load writes the value read, advances and changes nothing
else. -/
theorem exec_of_effectOf_eq_load_admitted (hin : ea.toNat + n ≤ s.params.memBound) :
    ∃ t, exec i s = .next t ∧ RegWritten s t rd v ∧ MemKept s t ∧ MovesTo s t (s.pc + 4) := by
  rw [hr, if_pos hin] at h
  exact exec_of_effectOf_eq_writeRd h

/-- A refused load faults at the effective address and writes no register. -/
theorem exec_of_effectOf_eq_load_refused (hout : s.params.memBound < ea.toNat + n) :
    exec i s = .next (faulted s .memoryFault ea) := by
  rw [hr, if_neg (Nat.not_le_of_lt hout)] at h
  exact exec_of_error h

end

section
variable {i : Instr} {s : State} {ea : Word} {bs : List Byte} (h : effectOf i s = s.store ea bs)
include h

/-- An instruction whose effect is an admitted store writes its bytes, advances and changes nothing else. -/
theorem exec_of_effectOf_eq_store_admitted (hm : Memory.wf s.mem = true)
    (hin : ea.toNat + bs.length ≤ s.params.memBound) :
    ∃ t, exec i s = .next t ∧ MemWritten s t ea.toNat bs ∧ RegsKept s t ∧ MovesTo s t (s.pc + 4) := by
  rw [store_eq, if_pos hin] at h
  exact ⟨_, exec_of_ok h, commit_memWritten s _ hm rfl, commit_regsKept s _ rfl, commit_movesTo s _ rfl rfl rfl⟩

/-- A refused store faults at the effective address and writes no byte. -/
theorem exec_of_effectOf_eq_store_refused (hout : s.params.memBound < ea.toNat + bs.length) :
    exec i s = .next (faulted s .memoryFault ea) := by
  rw [store_eq, if_neg (Nat.not_le_of_lt hout)] at h
  exact exec_of_error h

end

/-! ### The shapes of statement -/

section
variable {m : Mnemonic} {matchBits : Word} {mk : RegIdx → RegIdx → Word → Instr} {n : Nat}

/-- A load's statement, from the row, the effect and what its read gives. -/
theorem load_of_row {value : (Nat → Byte) → Nat → Word} {read : State → Word → Except FaultRecord Word}
    (hrow : ⟨m, .i, matchBits, 0x0000707f⟩ ∈ opcodeRows) (hmk : ∀ d : Decoded, m.toInstr d = mk d.rd d.rs1 d.imm)
    (heffect : ∀ rd rs1 imm s, effectOf (mk rd rs1 imm) s = s.load rd (read s (s.readReg rs1 + imm)))
    (hread : ∀ s ea, read s ea =
      if ea.toNat + n ≤ s.params.memBound then .ok (value s.byte ea.toNat) else .error ⟨.memoryFault, ea⟩) :
    Load matchBits mk n value := by
  refine ⟨fun w hw => ?decodes, fun rd rs1 imm s => ?executes⟩
  case decodes =>
    rw [decode_of_masked hrow hw, hmk]
    rfl
  case executes =>
    have he := heffect rd rs1 imm s
    have hr := hread s (s.readReg rs1 + imm)
    exact ⟨exec_of_effectOf_eq_load_admitted he hr, exec_of_effectOf_eq_load_refused he hr⟩

/-- A store's statement, from the row, the effect and the number of bytes it stores. -/
theorem store_of_row {bytes : Word → List Byte}
    (hrow : ⟨m, .s, matchBits, 0x0000707f⟩ ∈ opcodeRows) (hmk : ∀ d : Decoded, m.toInstr d = mk d.rs1 d.rs2 d.imm)
    (heffect : ∀ rs1 rs2 imm s,
      effectOf (mk rs1 rs2 imm) s = s.store (s.readReg rs1 + imm) (bytes (s.readReg rs2)))
    (hlength : ∀ v, (bytes v).length = n) : Store matchBits mk n bytes := by
  refine ⟨fun w hw => ?decodes, fun rs1 rs2 imm s => ?executes⟩
  case decodes =>
    rw [decode_of_masked hrow hw, hmk]
    rfl
  case executes =>
    have he := heffect rs1 rs2 imm s
    rw [← hlength (s.readReg rs2)]
    refine ⟨fun hm hin => ?_, exec_of_effectOf_eq_store_refused he⟩
    obtain ⟨t, ht, hframe⟩ := exec_of_effectOf_eq_store_admitted he hm hin
    exact ⟨t, ht, rfl, hframe⟩

end

/-- The bytes a SH stores are the two low bytes of the whole register (45_loads_stores.md R187). -/
theorem storeBytes16_eq (s : State) (rs2 : RegIdx) :
    s.storeBytes16 rs2 = [(s.readReg rs2).extractLsb' 0 8, (s.readReg rs2).extractLsb' 8 8] := by
  rw [State.storeBytes16, bytes16, extractLsb'_extractLsb', extractLsb'_extractLsb']

/-! ### A load after a store -/

/-- An admitted load to a register other than 0 gives there the value its statement names. -/
theorem readReg_of_load {matchBits : Word} {mk : RegIdx → RegIdx → Word → Instr} {n : Nat}
    {value : (Nat → Byte) → Nat → Word} (h : Load matchBits mk n value) {s : State} {rd rs1 : RegIdx} {imm : Word}
    (hin : (s.readReg rs1 + imm).toNat + n ≤ s.params.memBound) (hrd : rd ≠ 0) :
    ∃ t, exec (mk rd rs1 imm) s = .next t ∧ t.readReg rd = value s.byte (s.readReg rs1 + imm).toNat := by
  obtain ⟨t, ht, hreg, -, -⟩ := (h.2 rd rs1 imm s).1 hin
  refine ⟨t, ht, ?_⟩
  rw [hreg rd, if_neg hrd, if_pos rfl]

/-- The first byte written stands at the address of the write (20_memory.md R55). -/
theorem MemWritten.byte_first {s t : State} {ea : Nat} {b : Byte} {bs : List Byte}
    (h : MemWritten s t ea (b :: bs)) : t.byte ea = b := by
  rw [h ea, if_pos ⟨Nat.le_refl ea, Nat.lt_add_of_pos_right (Nat.succ_pos _)⟩, Nat.sub_self, List.getD_cons_zero]

end Sys2Proof.Machine
end

section
/-! The statements about the loads and stores (45_loads_stores.md), settled. -/

namespace Sys2Proof.Machine

open Sys2Proof.Claims

/-- Settles O32: each row's effect is a load, and its read gives the extended bytes below the bound and the
fault past it. -/
theorem loadsReadAndExtend : Obligations.LoadsReadAndExtend :=
  ⟨load_of_row (m := .lb) (by decide) (fun _ => rfl) (fun _ _ _ _ => rfl) loadS8_eq,
    load_of_row (m := .lh) (by decide) (fun _ => rfl) (fun _ _ _ _ => rfl) loadS16_eq,
    load_of_row (m := .lw) (by decide) (fun _ => rfl) (fun _ _ _ _ => rfl) load32_eq,
    load_of_row (m := .lbu) (by decide) (fun _ => rfl) (fun _ _ _ _ => rfl) loadU8_eq,
    load_of_row (m := .lhu) (by decide) (fun _ => rfl) (fun _ _ _ _ => rfl) loadU16_eq⟩

/-- Settles O33: each row's effect is a store of the low bytes of `x[rs2]`. -/
theorem storesWriteLowBytes : Obligations.StoresWriteLowBytes :=
  ⟨store_of_row (m := .sb) (by decide) (fun _ => rfl) (fun _ _ _ _ => rfl) (fun _ => rfl),
    store_of_row (m := .sh) (by decide) (fun _ => rfl)
      (fun _ rs2 _ s => congrArg (s.store _) (storeBytes16_eq s rs2)) (fun _ => rfl),
    store_of_row (m := .sw) (by decide) (fun _ => rfl) (fun _ _ _ _ => rfl) (fun _ => rfl)⟩

/-- Settles O34: SB leaves the byte at `ea` and the bound as it was, so both loads of `ea` are admitted and
read that byte. -/
theorem storedByteLoadsBack : Obligations.StoredByteLoadsBack := by
  intro rs1 rs2 rd rb imm imm' s t hm hin hsb hea hrd
  obtain ⟨hsbStore, -, -⟩ := storesWriteLowBytes
  obtain ⟨hlb, -, -, hlbu, -⟩ := loadsReadAndExtend
  obtain ⟨t', ht', -, hwritten, -, hmoves⟩ := (hsbStore.2 rs1 rs2 imm s).1 hm hin
  obtain rfl : t' = t := Host.Outcome.next.inj (ht'.symm.trans hsb)
  have hbyte : t'.byte (t'.readReg rb + imm').toNat = (s.readReg rs2).extractLsb' 0 8 :=
    hea ▸ hwritten.byte_first
  have hadmitted : (t'.readReg rb + imm').toNat + 1 ≤ t'.params.memBound := by
    rw [hea, hmoves.params]
    exact hin
  rw [← hbyte]
  exact ⟨readReg_of_load hlb hadmitted hrd, readReg_of_load hlbu hadmitted hrd⟩

end Sys2Proof.Machine
end

section
/-! SUPPORT. The system instructions (46_system.md): the one word of an instruction that ignores no bit, the
illegal words under FENCE's opcode, ECALL's effect answer by answer, and the reference environment number by
number with the decimal text it prints. -/

namespace Sys2Proof.Machine

open Sys2Proof.Claims

/-! ### Decoding (30_encoding.md R97, R100) -/

/-- An instruction other than FENCE has one word, its encoding. -/
theorem decode_eq_ok_iff_eq_encode {i : Instr} (hwf : i.wf = true) (hi : i ≠ .fence) (w : Word) :
    decode w = .ok i ↔ w = encode i :=
  ⟨fun h => (encode_of_decode h hi).symm, fun hw => decode_of_encode_eq hwf hw.symm⟩

/-- Under FENCE's opcode only funct3 000 is an instruction (30_encoding.md R97). -/
theorem illegalShape_of_fence_opcode {w : Word} (hop : fieldOpcode w = 0b0001111#7)
    (hf3 : fieldFunct3 w ≠ 0b000#3) : IllegalShape w := by
  unfold IllegalShape
  iterate 10 right
  exact .inl ⟨hop, hf3⟩

/-! ### ECALL's effect, answer by answer (46_system.md R203) -/

section
variable {s : State}

theorem effectOf_ecall_of_goOn {bytes : List Byte} (h : s.callEnv = .goOn bytes) :
    effectOf .ecall s = .ok { out := bytes, nextPc := s.pc + 4 } :=
  congrArg s.answered h

theorem effectOf_ecall_of_exit {code : Word} (h : s.callEnv = .exit code) :
    effectOf .ecall s = .ok { exit := some code, nextPc := s.pc + 4 } :=
  congrArg s.answered h

theorem effectOf_ecall_of_fail {cause : EnvCause} {info : Word} (h : s.callEnv = .fail cause info) :
    effectOf .ecall s = .error ⟨envCause cause, info⟩ :=
  congrArg s.answered h

end

/-! ### The reference environment, number by number (46_system.md R204 to R208) -/

section
variable {s : State} (henv : s.params.env = .reference)
include henv

theorem callEnv_of_printInteger (hn : (s.readReg 17).toNat = 1) :
    s.callEnv = .goOn (decimalText (s.readReg 10)) := by
  simp only [callEnv_reference s henv, hn]

theorem callEnv_of_exitZero (hn : (s.readReg 17).toNat = 10) : s.callEnv = .exit 0 := by
  simp only [callEnv_reference s henv, hn]

theorem callEnv_of_exitCode (hn : (s.readReg 17).toNat = 93) : s.callEnv = .exit (s.readReg 10) := by
  simp only [callEnv_reference s henv, hn]

theorem callEnv_of_printBytes (hn : (s.readReg 17).toNat = 64) :
    s.callEnv = if (s.readReg 11).toNat + (s.readReg 12).toNat ≤ s.params.memBound then
      .goOn (Memory.getBytes s.mem (s.readReg 11).toNat (s.readReg 12).toNat)
    else .fail .memoryFault (s.readReg 11) := by
  simp only [callEnv_reference s henv, hn]

theorem callEnv_of_unknown (hn : (s.readReg 17).toNat ∉ [1, 10, 64, 93]) :
    s.callEnv = .fail .unsupportedSyscall (s.readReg 17) := by
  rw [callEnv_reference s henv]
  split
  case h_5 => rfl
  all_goals
    next hknown => exact absurd (by rw [hknown]; decide) hn

end

/-! ### The decimal text (46_system.md R205) -/

/-- The decimal digit `k % 10` in ASCII. -/
theorem decimalByte_toNat (k : Nat) : (BitVec.ofNat 8 (0x30 + k % 10)).toNat = 0x30 + k % 10 :=
  (BitVec.toNat_ofNat _ _).trans (Nat.mod_eq_of_lt (by omega))

theorem digitsValue_append_singleton (ds : List Byte) (d : Byte) :
    digitsValue (ds ++ [d]) = 10 * digitsValue ds + (d.toNat - 0x30) :=
  List.foldl_append

/-- `ds` is the decimal text of `n`: digits with that value, at least one, and none before them that could
be left out. -/
structure IsDecimal (n : Nat) (ds : List Byte) : Prop where
  digits   : ∀ d ∈ ds, 0x30 ≤ d.toNat ∧ d.toNat ≤ 0x39
  value    : digitsValue ds = n
  nonempty : ds ≠ []
  leading  : ds.head? = some 0x30#8 → ds = [0x30#8]

theorem isDecimal_of_lt_ten {n : Nat} (hn : n < 10) : IsDecimal n [BitVec.ofNat 8 (0x30 + n % 10)] where
  digits := by
    rw [List.forall_mem_singleton, decimalByte_toNat]
    omega
  value := by
    rw [← List.nil_append [_], digitsValue_append_singleton, decimalByte_toNat, digitsValue, List.foldl_nil]
    omega
  nonempty := List.cons_ne_nil _ _
  leading := fun h => congrArg (fun d => [d]) (Option.some.inj h)

/-- The text of a number of two or more digits is that of its tenth and its last digit: the tenth is not 0,
so its text does not start with 0. -/
theorem IsDecimal.append_digit {n : Nat} {ds : List Byte} (hds : IsDecimal (n / 10) ds) (hn : 10 ≤ n) :
    IsDecimal n (ds ++ [BitVec.ofNat 8 (0x30 + n % 10)]) where
  digits := by
    rw [List.forall_mem_append, List.forall_mem_singleton, decimalByte_toNat]
    exact ⟨hds.digits, by omega⟩
  value := by
    rw [digitsValue_append_singleton, hds.value, decimalByte_toNat]
    omega
  nonempty := List.append_ne_nil_of_left_ne_nil hds.nonempty _
  leading := fun hzero => by
    rw [List.head?_append_of_ne_nil _ hds.nonempty] at hzero
    have hvalue := hds.value
    rw [hds.leading hzero] at hvalue
    change 0 = n / 10 at hvalue
    omega

/-- The text passed in stays behind the digits. -/
theorem decimalDigits_eq_append (fuel n : Nat) (acc : List Byte) :
    decimalDigits fuel n acc = decimalDigits fuel n [] ++ acc := by
  induction fuel generalizing n acc with
  | zero => rfl
  | succ fuel ih =>
    simp only [decimalDigits]
    split
    · rfl
    · rw [ih _ (_ :: acc), ih _ [_], List.append_assoc, List.singleton_append]

theorem decimalDigits_of_lt_ten (fuel : Nat) {n : Nat} (hn : n < 10) :
    decimalDigits (fuel + 1) n [] = [BitVec.ofNat 8 (0x30 + n % 10)] :=
  if_pos (Nat.div_eq_of_lt hn)

theorem decimalDigits_of_ten_le (fuel : Nat) {n : Nat} (hn : 10 ≤ n) :
    decimalDigits (fuel + 1) n [] = decimalDigits fuel (n / 10) [] ++ [BitVec.ofNat 8 (0x30 + n % 10)] :=
  (if_neg (by omega)).trans (decimalDigits_eq_append _ _ _)

/-- With fuel for every digit of `n`, the digits are its decimal text. -/
theorem decimalDigits_isDecimal {fuel n : Nat} (hn : n < 10 ^ (fuel + 1)) :
    IsDecimal n (decimalDigits (fuel + 1) n []) := by
  induction fuel generalizing n with
  | zero =>
    rw [decimalDigits_of_lt_ten 0 hn]
    exact isDecimal_of_lt_ten hn
  | succ fuel ih =>
    obtain hlt | hle := Nat.lt_or_ge n 10
    · rw [decimalDigits_of_lt_ten _ hlt]
      exact isDecimal_of_lt_ten hlt
    · rw [decimalDigits_of_ten_le _ hle]
      exact (ih (Nat.div_lt_of_lt_mul (by rwa [← Nat.pow_succ']))).append_digit hle

/-- The text of a word is its sign, if negative, and the digits of its magnitude. -/
theorem decimalText_eq (v : Word) :
    decimalText v = (if v.toInt < 0 then [0x2d#8] else []) ++ decimalDigits 10 v.toInt.natAbs [] := by
  have hsign : v.msb = decide (v.toInt < 0) := BitVec.msb_eq_toInt
  have hcond := BitVec.toInt_eq_msb_cond v
  unfold decimalText
  cases hmsb : v.msb with
  | true =>
    have hneg : v.toInt < 0 := of_decide_eq_true (hsign.symm.trans hmsb)
    have habs : v.toInt.natAbs = 2 ^ 32 - v.toNat := by rw [hmsb, if_pos rfl] at hcond; omega
    rw [if_pos hneg, habs]
    rfl
  | false =>
    have hnonneg : ¬ v.toInt < 0 := of_decide_eq_false (hsign.symm.trans hmsb)
    have habs : v.toInt.natAbs = v.toNat := by rw [hmsb, if_neg Bool.false_ne_true] at hcond; omega
    rw [if_neg hnonneg, habs]
    rfl

/-- Ten digits hold any magnitude up to 2^31 (46_system.md R205). -/
theorem decimalDigits_natAbs_isDecimal (v : Word) :
    IsDecimal v.toInt.natAbs (decimalDigits 10 v.toInt.natAbs []) := by
  have hlow := BitVec.le_toInt v
  have hhigh := BitVec.toInt_lt (x := v)
  exact decimalDigits_isDecimal (by omega)

end Sys2Proof.Machine
end

section
/-! The statements about the system instructions (46_system.md), settled. -/

namespace Sys2Proof.Machine

open Sys2Proof.Claims

/-- Settles O43: ECALL ignores no bit of its word, and its effect is the delta or the fault of the answer. -/
theorem ecallTakesTheAnswer : Obligations.EcallTakesTheAnswer := by
  refine ⟨decode_eq_ok_iff_eq_encode rfl (by decide), fun s => ⟨fun bytes h => ?goOn, fun code h => ?exit,
    fun cause info h => ?fail⟩⟩
  case goOn =>
    exact ⟨_, exec_of_ok (effectOf_ecall_of_goOn h), commit_regsKept s _ rfl, commit_memKept s _ rfl, rfl, rfl,
      statusAfter_none s.params _, rfl, rfl, rfl⟩
  case exit =>
    exact ⟨_, exec_of_ok (effectOf_ecall_of_exit h), commit_regsKept s _ rfl, commit_memKept s _ rfl, rfl,
      List.append_nil _, rfl, rfl, rfl, rfl⟩
  case fail =>
    rw [exec_of_error (effectOf_ecall_of_fail h)]
    cases cause <;> rfl

/-- Settles O47: within the bound the bytes are a block read of the data memory. -/
theorem referencePrintsBytes : Obligations.ReferencePrintsBytes := by
  intro s henv hn
  rw [callEnv_of_printBytes henv hn]
  exact ⟨fun hin => ⟨_, if_pos hin, Memory.getBytes_length .., fun k hk => Memory.getBytes_get _ _ _ k hk⟩,
    fun hout => if_neg (Nat.not_le_of_lt hout)⟩

/-- Settles O48: the text is the sign and the digits of the magnitude, which ten digits hold. -/
theorem referencePrintsSignedDecimal : Obligations.ReferencePrintsSignedDecimal := by
  intro s henv hn
  have hdec := decimalDigits_natAbs_isDecimal (s.readReg 10)
  refine ⟨_, ?_, hdec.digits, hdec.value, hdec.nonempty, fun hlen hzero => ?_⟩
  · rw [callEnv_of_printInteger henv hn, decimalText_eq]
  · rw [hdec.leading hzero] at hlen
    exact absurd hlen (by decide)

/-- Settles O41: FENCE's row looks at opcode and funct3 alone, and its effect is the move to `pc + 4`. -/
theorem fenceOnlyAdvances : Obligations.FenceOnlyAdvances := by
  refine ⟨fun w hw => ?fence, fun w hw => ?fenceI, fun s => exec_of_effectOf_eq_transfer rfl⟩
  case fence => exact decode_of_masked (r := ⟨.fence, .carrier, 0x0000000f, 0x0000707f⟩) (by decide) hw
  case fenceI =>
    obtain ⟨hop, hf3⟩ := (masked3_iff w (by decide)).1 hw
    have hill : IllegalShape w := illegalShape_of_fence_opcode hop (by rw [hf3]; decide)
    exact decode_eq_error_iff.2 ((illegalShape_iff w).1 hill)

/-- Settles O42: EBREAK ignores no bit of its word, and its effect is the fault. -/
theorem ebreakAlwaysFaults : Obligations.EbreakAlwaysFaults :=
  ⟨decode_eq_ok_iff_eq_encode rfl (by decide), fun _ => exec_of_error rfl⟩

/-- Settles O46, number by number. -/
theorem referenceExitsAndRefusesUnknown : Obligations.ReferenceExitsAndRefusesUnknown :=
  fun _ henv => ⟨callEnv_of_exitCode henv, callEnv_of_exitZero henv, callEnv_of_unknown henv⟩

end Sys2Proof.Machine
end

section
/-! SUPPORT. The step cycle (47_step_cycle.md): which word a step runs, `run` one step at a time, and what a
committed instruction leaves of the control state. -/

namespace Sys2Proof.Machine

open Sys2Proof.Claims

/-! ### The word a step runs (47_step_cycle.md R228, 20_memory.md R58) -/

/-- A fetch finds the word of the program store at a PC in the valid range, and no other. -/
theorem fetch_eq_some_iff {s : State} {w : Word} : s.fetch = some w ↔
    InValidRange s.params s.pc ∧ s.params.prog[(s.pc.toNat - s.params.entry.toNat) / 4]? = some w := by
  rw [State.fetch, fetchAt, Option.ite_none_right_eq_some, inRange_iff]

/-- A step finds no word exactly outside the valid range (10_state.md R38). -/
theorem fetch_eq_none_iff {s : State} : s.fetch = none ↔ ¬ InValidRange s.params s.pc :=
  ⟨not_inValidRange_of_fetch_none, fun hr => if_neg fun hin => hr ((inRange_iff _ _).1 hin)⟩

theorem step_eq_exec_of_fetches {s : State} {w : Word} {i : Instr} (h : Fetches s w) (hd : decode w = .ok i) :
    step s = exec i s := by
  rw [step_eq_runWord_of_fetches h, State.runWord, hd]

theorem step_of_halted {s : State} (h : s.halted = true) : step s = .next s := by
  rw [step, State.cycle, if_pos h]

theorem step_of_fetch_none {s : State} (hrun : s.halted = false) (h : s.fetch = none) :
    step s = .next { s with status := .haltDone } := by
  rw [step, State.cycle, hrun, h]
  rfl

/-- A step always has a next state (60_exceptions.md R260). -/
theorem exists_step_eq_next (s : State) : ∃ t, step s = .next t := by
  obtain ⟨-, h⟩ | ⟨-, -, h⟩ | ⟨-, _, -, -, h⟩ | ⟨-, _, _, -, -, h⟩ := step_cases s <;> exact ⟨_, h⟩

/-! ### A placed word (log 11) -/

theorem tableWord_toNat (w : Word) : tableWord 32 w.toNat = w := by
  rw [tableWord, Nat.mod_eq_of_lt w.isLt, BitVec.ofNat_toNat, BitVec.setWidth_eq]

theorem placeWord_running (s : State) (w : Word) :
    (s.placeWord w).status = .ready ∨ (s.placeWord w).status = .active := by
  unfold State.placeWord
  cases s.status with
  | ready => exact .inl rfl
  | active | haltDone | haltErr => exact .inr rfl

/-- The PC rounded down to a multiple of 4, where a program placed outside the range is entered. -/
theorem alignDown_toNat (pc : Word) : (pc - BitVec.ofNat 32 (pc.toNat % 4)).toNat = pc.toNat - pc.toNat % 4 := by
  have hlt := pc.isLt
  rw [BitVec.toNat_sub, BitVec.toNat_ofNat]
  omega

theorem placeWord_params_of_inRange {s : State} (h : InValidRange s.params s.pc) (w : Word) :
    (s.placeWord w).params =
      { s.params with prog := s.params.prog.set ((s.pc.toNat - s.params.entry.toNat) / 4) w } :=
  if_pos ((inRange_iff _ _).2 h)

theorem placeWord_params_of_not_inRange {s : State} (h : ¬ InValidRange s.params s.pc) (w : Word) :
    (s.placeWord w).params =
      { s.params with entry := s.pc - BitVec.ofNat 32 (s.pc.toNat % 4), prog := [w] } :=
  if_neg fun hin => h ((inRange_iff _ _).1 hin)

/-- The placed word is the one the next step fetches: it replaces the word at a PC in the valid range, and is
the whole program where the PC was outside. -/
theorem placeWord_fetches (s : State) (w : Word) : Fetches (s.placeWord w) w := by
  by_cases hr : InValidRange s.params s.pc
  · have hp := placeWord_params_of_inRange hr w
    obtain ⟨hlo, hhi⟩ := hr
    refine ⟨placeWord_running s w, ?_, ?_⟩ <;> rw [hp, placeWord_pc]
    · exact ⟨hlo, by rwa [List.length_set]⟩
    · exact List.getElem?_set_self (by omega)
  · have hp := placeWord_params_of_not_inRange hr w
    have halign := alignDown_toNat s.pc
    refine ⟨placeWord_running s w, ?_, ?_⟩ <;> rw [hp, placeWord_pc]
    · exact ⟨by dsimp only; omega, by dsimp only [List.length_singleton]; omega⟩
    · have hzero : (s.pc.toNat - (s.pc - BitVec.ofNat 32 (s.pc.toNat % 4)).toNat) / 4 = 0 := by omega
      rw [hzero, List.getElem?_cons_zero]

/-! ### `run`, one step at a time (47_step_cycle.md R232) -/

theorem runFor_of_halted {s : State} (h : s.halted = true) (fuel : Nat) : runFor fuel s = .next s := by
  cases fuel with
  | zero => rfl
  | succ fuel => rw [runFor, if_pos h]

/-- `run` takes a step and goes on from there; that it stops in a halted block makes no difference, because
a halted block steps to itself. -/
theorem runFor_succ {s t : State} (h : step s = .next t) (fuel : Nat) :
    runFor (fuel + 1) s = runFor fuel t := by
  cases hh : s.halted with
  | true => rw [step_halted h hh, runFor_of_halted hh, runFor_of_halted hh]
  | false => rw [runFor, if_neg (by rw [hh]; decide), h]

/-- One `run` after another is a `run` under the sum of their fuel. -/
theorem runFor_add {fuel : Nat} {s t : State} (h : runFor fuel s = .next t) (more : Nat) :
    runFor (fuel + more) s = runFor more t := by
  induction fuel generalizing s with
  | zero => cases h; rw [Nat.zero_add]
  | succ fuel ih =>
    obtain ⟨u, hu⟩ := exists_step_eq_next s
    rw [runFor_succ hu] at h
    rw [Nat.succ_add, runFor_succ hu, ih h]

theorem core_run_succ {M : Host.Core} {s t : M.State} (h : M.step s = .next t) (fuel : Nat) :
    M.run (fuel + 1) s = M.run fuel t := by
  rw [Host.Core.run, h]

theorem runFor_eq_core_run (fuel : Nat) (s : State) : runFor fuel s = Host.Core.run core fuel s := by
  induction fuel generalizing s with
  | zero => rfl
  | succ fuel ih =>
    obtain ⟨t, ht⟩ := exists_step_eq_next s
    rw [runFor_succ ht, ih]
    exact (core_run_succ (M := core) ht fuel).symm

/-! ### What a delta carries and what it writes -/

/-- Only an ECALL answered `Exit` delivers an exit code (46_system.md R203). -/
theorem EffectShape.exit_eq_none {s : State} {i : Instr} {d : Delta} (h : EffectShape s i (.ok d))
    (hexit : ∀ code, i = .ecall → s.callEnv ≠ .exit code) : d.exit = none := by
  cases h with
  | exits hi henv => exact absurd henv (hexit _ hi)
  | writes | moves | stores | prints => rfl

/-- A delta of an instruction writes memory or a register, not both (47_step_cycle.md R230). -/
theorem EffectShape.reg_or_store_eq_none {s : State} {i : Instr} {d : Delta} (h : EffectShape s i (.ok d)) :
    d.reg = none ∨ d.store = none := by
  cases h with
  | writes => exact .inr rfl
  | moves | stores | prints | exits => exact .inl rfl

end Sys2Proof.Machine
end

section
/-! SUPPORT. The six units (47_step_cycle.md R221 to R229): each shape of row of the dispatch table collects
the effect the instruction rules name, and so every row collects the effect of its instruction. -/

namespace Sys2Proof.Machine.Units

/-! ### The PC sequencer (47_step_cycle.md R225) -/

theorem misaligned_iff (t : Word) : misaligned t = true ↔ ¬ t.toNat % 4 = 0 := decide_eq_true_iff

/-! ### The address translator (47_step_cycle.md R226, 20_memory.md R52, R54) -/

section
variable (m : List Host.Cell) (a : Nat)

/-- The little-endian value of one byte more is that byte below the value of the rest. -/
theorem ofNat_leNat_getBytes_succ (n : Nat) : BitVec.ofNat (8 * (n + 1)) (leNat (Memory.getBytes m a (n + 1))) =
    BitVec.ofNat (8 * n) (leNat (Memory.getBytes m (a + 1) n)) ++ Memory.get m a := by
  have hb := (Memory.get m a).isLt
  have hdiv : ((Memory.get m a).toNat + 256 * leNat (Memory.getBytes m (a + 1) n)) / 256 =
      leNat (Memory.getBytes m (a + 1) n) := by omega
  apply BitVec.eq_of_toNat_eq
  rw [BitVec.toNat_append, ← Nat.shiftLeft_add_eq_or_of_lt hb, Nat.shiftLeft_eq, BitVec.toNat_ofNat,
    BitVec.toNat_ofNat, Memory.getBytes, leNat, Nat.mul_succ, Nat.pow_add, Nat.mul_comm (2 ^ (8 * n)), Nat.mod_mul,
    show 2 ^ 8 = 256 from rfl, hdiv]
  omega

theorem ofNat_leNat_getBytes_one : BitVec.ofNat 8 (leNat (Memory.getBytes m a 1)) = Memory.get m a := by
  rw [Memory.getBytes, leNat, Memory.getBytes, leNat, Nat.mul_zero, Nat.add_zero, BitVec.ofNat_toNat,
    BitVec.setWidth_eq]

theorem ofNat_leNat_getBytes_two :
    BitVec.ofNat 16 (leNat (Memory.getBytes m a 2)) = Memory.get m (a + 1) ++ Memory.get m a := by
  rw [ofNat_leNat_getBytes_succ m a 1, ofNat_leNat_getBytes_one]

theorem ofNat_leNat_getBytes_four : BitVec.ofNat 32 (leNat (Memory.getBytes m a 4)) =
    Memory.get m (a + 3) ++ Memory.get m (a + 2) ++ Memory.get m (a + 1) ++ Memory.get m a := by
  rw [ofNat_leNat_getBytes_succ m a 3, ofNat_leNat_getBytes_succ m _ 2, ofNat_leNat_getBytes_two]

end

/-! ### What each shape of row collects (47_step_cycle.md R229) -/

section
variable (s : State) (iw : Word) (d : Decoded)

theorem collect_rowR (fn : AluFn) : collect s iw d (rowR fn) =
    s.writeRd d.rd (alu fn (s.readReg d.rs1) (s.readReg d.rs2)).result := rfl

theorem collect_rowI (fn : AluFn) : collect s iw d (rowI fn) =
    s.writeRd d.rd (alu fn (s.readReg d.rs1) d.imm).result := rfl

/-- A branch row transfers by the comparison bit it names. -/
theorem collect_rowB (taken : TakenSel) : collect s iw d (rowB taken) =
    s.branch (transfer (alu .passB (s.readReg d.rs1) (s.readReg d.rs2)) taken) d.imm := by
  rw [branch_eq]
  simp only [collect, rowB, Option.map_none, target]
  by_cases hgo : transfer (alu .passB (s.readReg d.rs1) (s.readReg d.rs2)) taken = true
  · simp only [hgo, Bool.true_and, misaligned_iff, ite_not, if_true]
  · simp only [hgo, Bool.false_and, Bool.false_eq_true, if_false]

/-- A jump row links and transfers to the target it selects. -/
theorem collect_jump (sel : TargetSel) :
    collect s iw d { write := .link, sel := sel, taken := .always } =
      s.jump d.rd (target s (s.readReg d.rs1) d.imm sel) := by
  rw [jump_eq]
  simp only [collect, transfer, Option.map_none, Bool.true_and, misaligned_iff, ite_not, if_true]

/-- A load row is a load of what the translator reads. -/
theorem collect_rowL {n : Nat} {signed : Bool} {v : Word} {r : Except FaultRecord Word}
    (hv : extend n signed (leNat (Memory.getBytes s.mem (s.effAddr d.rs1 d.imm).toNat n)) = v)
    (hr : r = if (s.effAddr d.rs1 d.imm).toNat + n ≤ s.params.memBound then .ok v
      else .error ⟨.memoryFault, s.effAddr d.rs1 d.imm⟩) :
    collect s iw d (rowL n signed) = s.load d.rd r := by
  rw [load_eq_ite s d.rd _ v n r hr, ← hv]
  unfold State.effAddr
  by_cases hin : (s.readReg d.rs1 + d.imm).toNat + n ≤ s.params.memBound
  · simp only [collect, rowL, Option.map_some, translate, hin, if_true]
    rfl
  · simp only [collect, rowL, Option.map_some, translate, hin, if_false]

/-- A store row is a store of the bytes the translator takes. -/
theorem collect_rowS {n : Nat} {bs : List Byte} (hbs : lowBytes (s.readReg d.rs2) 0 n = bs) (hn : bs.length = n) :
    collect s iw d (rowS n) = s.store (s.effAddr d.rs1 d.imm) bs := by
  rw [store_eq, hn]
  unfold State.effAddr
  by_cases hin : (s.readReg d.rs1 + d.imm).toNat + n ≤ s.params.memBound
  · simp only [collect, rowS, Option.map_some, translate, hbs, hin, if_true]
    rfl
  · simp only [collect, rowS, Option.map_some, translate, hin, if_false]

theorem collect_environment : collect s iw d { special := .environment } = s.answered s.callEnv := by
  simp only [collect, State.answered]
  cases s.callEnv <;> rfl

/-- The dispatch table (47_step_cycle.md R229): every row collects the effect of the instruction its operation
stands for. EBREAK's fault shows the fetched word, which is always its own (46_system.md R210). -/
theorem collect_control (m : Mnemonic) (hebreak : m = .ebreak → iw = ebreakWord) :
    collect s iw d (control m) = effectOf (m.toInstr d) s := by
  cases m with
  | add | sub | and | or | xor | sll | srl | sra | slt | sltu => exact collect_rowR s iw d _
  | addi | andi | ori | xori | slli | srli | srai | slti | sltiu => exact collect_rowI s iw d _
  | lui | auipc | fence => rfl
  | beq | bne | blt | bge | bltu | bgeu => exact collect_rowB s iw d _
  | jal => exact collect_jump s iw d .pcRelative
  | jalr => exact collect_jump s iw d .registerIndirect
  | lb => exact collect_rowL s iw d (congrArg (BitVec.signExtend 32) (ofNat_leNat_getBytes_one ..)) (loadS8_eq ..)
  | lh => exact collect_rowL s iw d (congrArg (BitVec.signExtend 32) (ofNat_leNat_getBytes_two ..)) (loadS16_eq ..)
  | lw => exact collect_rowL s iw d ((BitVec.signExtend_eq _).trans (ofNat_leNat_getBytes_four ..)) (load32_eq ..)
  | lbu => exact collect_rowL s iw d (congrArg (BitVec.zeroExtend 32) (ofNat_leNat_getBytes_one ..)) (loadU8_eq ..)
  | lhu => exact collect_rowL s iw d (congrArg (BitVec.zeroExtend 32) (ofNat_leNat_getBytes_two ..)) (loadU16_eq ..)
  | sb => exact collect_rowS s iw d rfl rfl
  | sh => exact collect_rowS s iw d (storeBytes16_eq s _).symm rfl
  | sw => exact collect_rowS s iw d rfl rfl
  | ecall => exact collect_environment s iw d
  | ebreak => rw [hebreak rfl]; rfl

end

/-! ### The data path of one step (47_step_cycle.md R221) -/

theorem decode_of_op_none {iw : Word} (h : (decodeRecord iw).op = none) :
    decode iw = .error (.illegalInstruction iw) := by
  rw [decode, h]

theorem decode_of_op_some {iw : Word} {m : Mnemonic} (h : (decodeRecord iw).op = some m) :
    decode iw = .ok (m.toInstr (decodeRecord iw)) := by
  rw [decode, h]

/-- Running a word that carries an operation is applying what the dispatcher collects for it. -/
theorem runWord_eq_apply_collect (s : State) {iw : Word} {m : Mnemonic} (h : (decodeRecord iw).op = some m) :
    s.runWord iw = .next (s.apply (collect s iw (decodeRecord iw) (control m))) := by
  have hd := decode_of_op_some h
  have hebreak : m = .ebreak → iw = ebreakWord := by
    rintro rfl
    exact (decode_eq_ok_iff_eq_encode (i := .ebreak) rfl nofun iw).1 hd
  rw [State.runWord, hd, collect_control s iw _ m hebreak]
  exact exec_eq_apply _ s

/-- The units' data path takes the step (47_step_cycle.md, opening: "that must compute the same function"). -/
theorem step_eq_unitStep (s : State) : step s = .next (unitStep s) := by
  rw [step, State.cycle, unitStep]
  by_cases hh : s.halted = true
  · rw [if_pos hh, if_pos hh]
  rw [if_neg hh, if_neg hh]
  cases s.fetch with
  | none => rfl
  | some iw =>
    cases hop : (decodeRecord iw).op with
    | none => simp only [hop, runWord_of_illegal (decode_of_op_none hop)]; rfl
    | some m => simp only [hop, runWord_eq_apply_collect s hop]

end Sys2Proof.Machine.Units
end

section
/-! The statements about the step cycle (47_step_cycle.md), settled. -/

namespace Sys2Proof.Machine

open Sys2Proof.Claims

/-- Settles O11: a step finds no word exactly when the PC is outside the valid range, which in a run a block
about to run is only at an empty program's entry. -/
theorem emptyProgramHaltsDone : Obligations.EmptyProgramHaltsDone := by
  intro s hs hrun
  refine ⟨?_, step_of_fetch_none ((not_halted_iff s).2 hrun)⟩
  rw [fetch_eq_none_iff]
  constructor
  · intro hout
    exact ⟨hrun.resolve_right fun hactive => hout (hs.activeInRange hactive),
      Nat.eq_zero_of_not_pos fun hprog => hout (hs.inValidRange_of_running hrun hprog)⟩
  · rintro ⟨-, hempty⟩ ⟨hlo, hhi⟩
    omega

/-- Settles O12: an instruction that completes without an exit code commits a delta that carries none, and
that delta is the same in every other program. -/
theorem postStepRangeCheck : Obligations.PostStepRangeCheck := by
  intro i s t h hok hexit
  obtain rfl := exec_next_iff.1 h
  cases he : effectOf i s with
  | error f =>
    rw [he] at hok
    exact absurd rfl hok
  | ok d =>
    have hnone : d.exit = none := EffectShape.exit_eq_none (he ▸ effectOf_shape i s) hexit
    refine ⟨?status, ?exitCode, fun entry prog => ?otherProgram⟩
    case status =>
      rw [apply_ok, commit_status, hnone]
      exact statusAfter_none s.params d.nextPc
    case exitCode => rw [apply_ok, commit_exitCode, hnone, Option.none_or]
    case otherProgram =>
      exact ⟨_, exec_of_ok ((effectOf_program i s entry prog).trans he), rfl, rfl, rfl, rfl⟩

/-- Settles O22: every row of the dispatch table collects the effect of its instruction. -/
theorem unitsComputeTheStep : Obligations.UnitsComputeTheStep := Units.step_eq_unitStep

/-- Settles O40: the registers are kept by a fault and by a delta that carries no register write, the memory
by a delta that carries no store. -/
theorem noInstructionWritesRegisterAndMemory : Obligations.NoInstructionWritesRegisterAndMemory := by
  intro i s t h
  obtain ⟨e, hshape, rfl⟩ := exec_shape h
  cases e with
  | error f => exact .inl fun _ => rfl
  | ok d => exact hshape.reg_or_store_eq_none.imp (commit_regsKept s d) (commit_memKept s d)

/-- Settles O51. -/
theorem runRepeatsStep : Obligations.RunRepeatsStep :=
  ⟨runFor_eq_core_run, fun _ more _ _ h hhalted => (runFor_add h more).trans (runFor_of_halted hhalted more)⟩

/-- Settles O8. -/
theorem stepRunsDecodedInstruction : Obligations.StepRunsDecodedInstruction :=
  fun _ _ _ => step_eq_exec_of_fetches

/-- Settles O9: the placed word is fetched. -/
theorem placedWordRunsNext : Obligations.PlacedWordRunsNext := by
  intro s w i hd
  rw [State.withFetchWord, tableWord_toNat]
  exact ⟨step_eq_exec_of_fetches (placeWord_fetches s w) hd, rfl, rfl, rfl⟩

/-- Settles O10. -/
theorem haltedBlockLeavesOnlyByReset : Obligations.HaltedBlockLeavesOnlyByReset := by
  intro s h
  have hh := (halted_iff s).2 h
  exact ⟨step_of_halted hh, runFor_of_halted hh, rfl⟩

/-- Settles O52: the port shows the fetch and the 32-register view of the state, and its other fields. -/
theorem observationShowsTheState : Obligations.ObservationShowsTheState := by
  refine fun s => ⟨rfl, fun _ => fetch_eq_some_iff, fun r => ?_, rfl, rfl, rfl, rfl⟩
  calc (observe s).registers[r.toNat]
      = s.readReg (BitVec.ofNat 5 r.toNat) := regs32_get s r.toNat r.isLt
    _ = s.readReg r := by rw [BitVec.ofNat_toNat, BitVec.setWidth_eq]

end Sys2Proof.Machine
end

section
/-! SUPPORT. An instruction and a step that end in `HALT_ERR` took a fault (60_exceptions.md R255), and the
register file after `reset`, register by register (70_reset_and_hazards.md R291). -/

namespace Sys2Proof.Machine

section
variable {s t : State}

/-- An instruction that ends in `HALT_ERR` took the fault its effect is. -/
theorem exec_haltErr_takeFault {i : Instr} (h : exec i s = .next t) (herr : t.status = .haltErr) :
    ∃ f, effectOf i s = .error f ∧ t = s.takeFault f := by
  obtain rfl := exec_next_iff.1 h
  cases he : effectOf i s with
  | error f => exact ⟨f, rfl, rfl⟩
  | ok d =>
    rw [he] at herr
    exact absurd herr (commit_status_ne_haltErr s d)

/-- A step of an unhalted block that ends in `HALT_ERR` took a fault: the end of a program is `HALT_DONE`,
and a commit is no fault. -/
theorem step_haltErr_takeFault (h : step s = .next t) (hrun : s.halted = false) (herr : t.status = .haltErr) :
    ∃ f, t = s.takeFault f := by
  obtain ⟨-, rfl⟩ | ⟨-, hfault⟩ | ⟨-, i, d, -, rfl⟩ := step_running h hrun
  · cases herr
  · exact hfault
  · exact absurd herr (commit_status_ne_haltErr s d)

end

/-- Register `k + 1` is entry `k` of the stored file, which leaves out `x0` (10_state.md R21). -/
theorem readReg_ofNat_succ (s : State) {k : Nat} (h : k < 31) :
    s.readReg (BitVec.ofNat 5 (k + 1)) = s.regs[k] := by
  calc s.readReg (BitVec.ofNat 5 (k + 1))
      = s.regs32[k + 1] := (regs32_get s (k + 1) (by omega)).symm
    _ = s.regs[k] := Vector.getElem_append_right (by omega) (by omega)

end Sys2Proof.Machine
end

section
/-! The statements about the exceptions and reset (60_exceptions.md, 70_reset_and_hazards.md), settled. -/

namespace Sys2Proof.Machine

open Sys2Proof.Claims

/-- Settles O14: the step took a fault, and `takeFault` writes the two fields alone. -/
theorem faultingStepWritesOnlyFaultAndStatus : Obligations.FaultingStepWritesOnlyFaultAndStatus := by
  intro s t hrun h herr
  obtain ⟨⟨cause, info⟩, rfl⟩ := step_haltErr_takeFault h ((not_halted_iff s).2 hrun) herr
  exact ⟨cause, info, rfl⟩

/-- Settles O15: the recorded fault is the instruction's effect, whose cause its row allows and which is
`MisalignedTarget` only for a transfer that is taken. -/
theorem instructionsRaiseOnlyTheirCauses : Obligations.InstructionsRaiseOnlyTheirCauses := by
  refine ⟨fun i s t h herr => ?instruction, fun s => ⟨ebreakWord, exec_of_error rfl⟩,
    fun s w hfetch hill => ?illegal⟩
  case instruction =>
    obtain ⟨⟨cause, info⟩, he, rfl⟩ := exec_haltErr_takeFault h herr
    refine ⟨_, rfl, effectOf_error_mayRaise he, ?_⟩
    rintro rfl
    exact ⟨info, ((effectOf_misaligned_iff i).1 he).1⟩
  case illegal => rw [step_eq_runWord_of_fetches hfetch, runWord_of_illegal hill]

/-- Settles O13: a step has a next state in each of its cases, and executing an instruction applies its
effect. -/
theorem stepIsTotal : Obligations.StepIsTotal :=
  ⟨exists_step_eq_next, fun i s => ⟨_, exec_eq_apply i s⟩⟩

/-- Settles O49: `reset` is the state the parameters name, read register by register. -/
theorem resetWritesEveryResetValue : Obligations.ResetWritesEveryResetValue := by
  rintro s _ ⟨⟩
  exact ⟨readReg_zero _, fun _ hk => readReg_ofNat_succ (resetCommand s) hk, rfl, rfl, rfl, rfl, rfl,
    fun _ => rfl, rfl⟩

end Sys2Proof.Machine
end
